-- ==== Sys2Proof/Word.lean ====
section
/-! DEFINITION. The word types of NECDEC: one name per width of 00_scope.md section 4. Every value of the block is
unsigned (R10), so these carry no sign. `W_FIELD`, `W_DUR`, `W_CNT` and `W_STAGE` are parameters (R8, `Params.widths`): the
types they measure have the largest width the parameter may take, and a register or a port is the low bits of it that its
parameter says. No operation writes a register bit above them. -/

namespace Sys2Proof

/-- The request word `Q` of R70: 72 bits. -/
abbrev RequestWord := BitVec 72

/-- A timestamp in microseconds, `W_TS` = 64 bits (R20, R72). -/
abbrev Timestamp := BitVec 64

/-- What holds a duration or tolerance in microseconds, of `W_DUR` bits, at most 63 (R31, R33). -/
abbrev Duration := BitVec 63

/-- What holds a field accumulator (`addr`, `cmd`, `inv_addr`, `inv_cmd`), of `W_FIELD` bits, at most 255 (R20; 00_scope.md
section 4). -/
abbrev FieldWord := BitVec 255

/-- What holds a bit count (`bit_idx`, `address_bits`, `command_bits`), of `W_CNT` bits, at most 16 (R20, R31). -/
abbrev Count := BitVec 16

/-- What holds the `stage` register, of `W_STAGE` bits, at most 16 (R20, R75). -/
abbrev StageCode := BitVec 16

/-- The operation code `Q[71:68]`, 4 bits (R71). -/
abbrev OpCode := BitVec 4

/-- A result code, 4 bits (R76). -/
abbrev ResultCode := BitVec 4

end Sys2Proof
end

