-- ==== Sys2Proof/Config.lean ====
section
/-! DEFINITION. The implementation parameters of 00_scope.md section 4 (R8), and the one free value of the model.
The parameters are plain data that `State` carries unchanged for the whole run, so that every claim over all states is a
claim for every choice of them. Only `W_TS` is a constant: the source itself fixes it (`timestamp_usecs: u64`). -/

namespace Sys2Proof

/-- `W_TS` (R8). -/
def Config.wTs : Nat := 64

/-- A value the spec does not state: what `bit_idx` holds after its largest value is incremented (R161 writes
`R.bit_idx + 1` = `2^W_CNT`, R20 gives the register `W_CNT` bits, the low ones of this). Log entry 8. -/
opaque Config.freeBitIdx : Nat → Count

/-- The width parameters of R8. 00_scope.md section 4 admits `W_FIELD` from 1 to 255. For the other three it gives a value and
no range: `W_CNT` must count up to `W_FIELD` (R9), `W_STAGE` must hold the eight stage codes (R75), and the upper ends keep
every bound of R131 within the 64-bit elapsed time and the counts and stages in 16 bits (log entry 1). -/
structure Widths where
  wField   : Nat
  wDur     : Nat
  wCnt     : Nat
  wStage   : Nat
  field_ok : 1 ≤ wField ∧ wField ≤ 255
  dur_ok   : 1 ≤ wDur ∧ wDur ≤ 63
  cnt_ok   : wField ≤ 2 ^ wCnt - 1 ∧ wCnt ≤ 16
  stage_ok : 3 ≤ wStage ∧ wStage ≤ 16
  deriving DecidableEq, Repr

/-- The value column of 00_scope.md section 4 for the widths. -/
def Widths.defaults : Widths where
  wField   := 32
  wDur     := 32
  wCnt     := 8
  wStage   := 8
  field_ok := by decide
  dur_ok   := by decide
  cnt_ok   := by decide
  stage_ok := by decide

/-- `POST_CMD_SELECT`: the flag that selects the stage after `Cmd` (R170). -/
inductive PostCmdSelect
  | cmdFlag
  | addrFlag
  deriving DecidableEq, Repr

/-- `BIT_ASSIGN`: the bit value of the shorter-period band (R132). -/
inductive BitAssign
  | byPeriod
  | upstreamFixed
  deriving DecidableEq, Repr

/-- `STOP_LATE_LOW`: the outcome of a low sample after the stop-mark band (R140). -/
inductive StopLateLow
  | symbolPeriodTooLong
  | finish
  deriving DecidableEq, Repr

/-- `FINISHED_POLICY`: the outcome of a SAMPLE at stage `Finished` (R109). -/
inductive FinishedPolicy
  | absorb
  | invalidStage
  deriving DecidableEq, Repr

/-- `INVERSE_SUPPORT`: whether the inverse stages are implemented (R107 check A9, R174). -/
inductive InverseSupport
  | implemented
  | rejectConfig
  deriving DecidableEq, Repr

/-- The parameters of R8. -/
structure Params where
  widths         : Widths
  postCmdSelect  : PostCmdSelect
  bitAssign      : BitAssign
  stopLateLow    : StopLateLow
  finishedPolicy : FinishedPolicy
  inverseSupport : InverseSupport
  deriving DecidableEq, Repr

/-- The value column of 00_scope.md section 4. -/
def Params.defaults : Params where
  widths         := Widths.defaults
  postCmdSelect  := .cmdFlag
  bitAssign      := .byPeriod
  stopLateLow    := .symbolPeriodTooLong
  finishedPolicy := .absorb
  inverseSupport := .implemented

end Sys2Proof
end

