-- ==== Sys2Proof/Syntax.lean ====
section
/-! DEFINITION. The requests of NECDEC as syntax: one constructor per row of the opcode table. A row of SAMPLE is
selected by the `stage` register, not by a bit of the request word (R77); `StageRow` names those rows. -/

namespace Sys2Proof

/-- A sample level (R13): high is the mark, low the space. -/
inductive Level
  | low
  | high
  deriving DecidableEq, Repr

/-- The operands of a SAMPLE word (R72): the level, the timestamp and the three presence bits. -/
structure SampleArgs where
  sample       : Level
  timestamp    : Timestamp
  statePresent : Bool
  protoPresent : Bool
  platPresent  : Bool
  deriving DecidableEq, Repr

/-- The stage classes of R75 and R77: eight legal stages and the illegal class 8 to 255. -/
inductive StageRow
  | idle
  | startSymbol
  | addr
  | addrInv
  | cmd
  | cmdInv
  | stopSymbol
  | finished
  | invalidStage
  deriving DecidableEq, Repr

/-- The requests, one constructor per row of the opcode table. INIT has no operand (R100). -/
inductive Instr
  | init
  | sampleIdle (q : SampleArgs)
  | sampleStartSymbol (q : SampleArgs)
  | sampleAddr (q : SampleArgs)
  | sampleAddrInv (q : SampleArgs)
  | sampleCmd (q : SampleArgs)
  | sampleCmdInv (q : SampleArgs)
  | sampleStopSymbol (q : SampleArgs)
  | sampleFinished (q : SampleArgs)
  | sampleInvalidStage (q : SampleArgs)
  deriving DecidableEq, Repr

/-- The operands of a SAMPLE row; INIT has none. -/
def Instr.args? : Instr → Option SampleArgs
  | .init => none
  | .sampleIdle q => some q
  | .sampleStartSymbol q => some q
  | .sampleAddr q => some q
  | .sampleAddrInv q => some q
  | .sampleCmd q => some q
  | .sampleCmdInv q => some q
  | .sampleStopSymbol q => some q
  | .sampleFinished q => some q
  | .sampleInvalidStage q => some q

/-- The stage class a SAMPLE row belongs to; INIT is legal in every stage. -/
def Instr.row? : Instr → Option StageRow
  | .init => none
  | .sampleIdle _ => some .idle
  | .sampleStartSymbol _ => some .startSymbol
  | .sampleAddr _ => some .addr
  | .sampleAddrInv _ => some .addrInv
  | .sampleCmd _ => some .cmd
  | .sampleCmdInv _ => some .cmdInv
  | .sampleStopSymbol _ => some .stopSymbol
  | .sampleFinished _ => some .finished
  | .sampleInvalidStage _ => some .invalidStage

/-- The SAMPLE row of a stage class. -/
def StageRow.instr : StageRow → SampleArgs → Instr
  | .idle => .sampleIdle
  | .startSymbol => .sampleStartSymbol
  | .addr => .sampleAddr
  | .addrInv => .sampleAddrInv
  | .cmd => .sampleCmd
  | .cmdInv => .sampleCmdInv
  | .stopSymbol => .sampleStopSymbol
  | .finished => .sampleFinished
  | .invalidStage => .sampleInvalidStage

end Sys2Proof
end

