-- ==== Sys2Proof/Machine/State.lean ====
section
/-! DEFINITION. What NECDEC holds (10_state.md), the reasons a step can stop, and the state after reset. There is no
memory, no program counter and no flag register (R29, R30, R50). -/

namespace Sys2Proof.Machine

/-- The error kinds of R210, in the order of their codes. -/
inductive ErrorKind
  | nullState
  | nullProtocol
  | nullPlatform
  | invalidStage
  | pulseTooShort
  | unexpectedLineHigh
  | symbolPeriodTooLong
  | inverseMismatch
  deriving DecidableEq, Repr

/-- The result of a request that is not refused (R76). -/
inductive Result
  | ok
  | error (k : ErrorKind)
  deriving DecidableEq, Repr

/-- The classifier outcomes of R134. `continues` is the spec's Continue, "keep sampling"; `completes b` carries the data
bit of the data classifier, and `()` for the start and stop classifiers. -/
inductive Classified (β : Type)
  | continues
  | completes (b : β)
  | errs (k : ErrorKind)
  deriving DecidableEq, Repr

/-- The four field stages of 42_stage_handlers.md section 2. -/
inductive Field
  | addr
  | addrInv
  | cmd
  | cmdInv
  deriving DecidableEq, Repr

/-- The numbers of the DecoderState registers (R20). -/
inductive Reg
  | s0 | s1 | s2 | s3 | s4 | s5 | s6
  deriving DecidableEq, Repr

/-- The numbers of the configuration fields (R31, R33). -/
inductive ConfigReg
  | p0 | p1 | p2 | p3 | p4 | p5 | p6 | p7 | p8 | q0
  deriving DecidableEq, Repr

/-- The DecoderState, S0 to S6 (R20). -/
structure DecoderState where
  stage       : StageCode
  bitIdx      : Count
  symbolStart : Timestamp
  addr        : FieldWord
  cmd         : FieldWord
  invAddr     : FieldWord
  invCmd      : FieldWord
  deriving DecidableEq, Repr

/-- ProtocolConfig, P0 to P8 (R31). `verifyFlags` is the packed register of R32. -/
structure ProtocolConfig where
  addressBits  : Count
  commandBits  : Count
  startPulse   : Duration
  startPeriod  : Duration
  stopPulse    : Duration
  dataBitPulse : Duration
  zeroPeriod   : Duration
  onePeriod    : Duration
  verifyFlags  : BitVec 8
  deriving DecidableEq, Repr

/-- PlatformConfig, Q0 (R33). -/
structure PlatformConfig where
  tolerance : Duration
  deriving DecidableEq, Repr

/-- One request as the host issues it: the request word (R70) and the configuration presented beside it (R34, R72).
Where a presence bit is 0 the value beside it is absent and nothing reads it. -/
structure Request where
  word     : RequestWord
  protocol : ProtocolConfig
  platform : PlatformConfig
  deriving DecidableEq, Repr

/-- Why a step stops with a fault. NECDEC has none: every error of R210 is the result of a request, after which the
block goes on (R213, R215), so this type has no constructor and no step faults. -/
inductive Fault
  deriving DecidableEq, Repr

/-- Why a request is refused: the model gives it no meaning (R7). Each is safe: nothing is proved of such a run. -/
inductive Refusal
  /-- Raised by an arm of exec that has no meaning yet (none). Safe. -/
  | notModelled (mnemonic : String)
  /-- Raised by the step on a request word whose `op` is 0x2 to 0xF (R74). Safe. -/
  | reservedOp (op : OpCode)
  /-- Raised by a SAMPLE whose presented configuration fails admission: the spec's `refuse(ConfigNotAdmitted)` (R101,
  R107). Safe. -/
  | configNotAdmitted
  /-- Raised by exec for a SAMPLE row that the `stage` register does not select (R77). The step never raises it, since it
  decodes under the same stage. Safe. -/
  | rowNotSelected
  deriving DecidableEq, Repr

/-- The machine. -/
structure State where
  /-- The DecoderState, S0 to S6 (R20). -/
  regs     : DecoderState
  /-- P0 to P8 as presented with the request being performed (R31, R34). -/
  protocol : ProtocolConfig
  /-- Q0 as presented with the request being performed (R33, R34). -/
  platform : PlatformConfig
  /-- The parameters, fixed for the whole run (R8). -/
  params   : Params
  /-- The ghost bit `err_seen` (R37). -/
  errSeen  : Bool
  /-- The model's own: the response to the latest request (R30, R76), which the host has and no register holds. -/
  response : Option Result
  /-- The model's own: the requests the host issues, in its order, not yet performed (R57). -/
  requests : List Request
  /-- The model's own: how many free values have been used (Config.freeBitIdx). -/
  draws    : Nat
  deriving DecidableEq, Repr

/-- The DecoderState after INIT and after power-on reset (R20, R35, R240). -/
def DecoderState.zero : DecoderState where
  stage       := 0
  bitIdx      := 0
  symbolStart := 0
  addr        := 0
  cmd         := 0
  invAddr     := 0
  invCmd      := 0

/-- A configuration port that nothing has driven yet (R241 gives it no reset value: log entry 2). -/
def ProtocolConfig.undriven : ProtocolConfig where
  addressBits  := 0
  commandBits  := 0
  startPulse   := 0
  startPeriod  := 0
  stopPulse    := 0
  dataBitPulse := 0
  zeroPeriod   := 0
  onePeriod    := 0
  verifyFlags  := 0

/-- Power-on reset (R240, R241): the DecoderState all zero, `err_seen` 0, no request issued and no response given. -/
def State.reset : State where
  regs     := DecoderState.zero
  protocol := ProtocolConfig.undriven
  platform := { tolerance := 0 }
  params   := Params.defaults
  errSeen  := false
  response := none
  requests := []
  draws    := 0

end Sys2Proof.Machine
end

