-- ==== Sys2Proof/Machine/Flags.lean ====
section
/-! DEFINITION. NECDEC has no condition codes (R30). What stands in their place: the two verify flags of the
configuration (R32) and the result code of a request (R76). -/

namespace Sys2Proof.Machine

/-- `addr_verify_inverse`: bit 0 of P8 (R32). -/
def ProtocolConfig.addrVerifyInverse (p : ProtocolConfig) : Bool := p.verifyFlags.getLsbD 0

/-- `cmd_verify_inverse`: bit 1 of P8 (R32). -/
def ProtocolConfig.cmdVerifyInverse (p : ProtocolConfig) : Bool := p.verifyFlags.getLsbD 1

/-- The reserved bits [7:2] of P8 (R32). -/
def ProtocolConfig.reservedFlags (p : ProtocolConfig) : BitVec 6 := p.verifyFlags.extractLsb' 2 6

/-- The code of an error kind (R76, R210). -/
def ErrorKind.code : ErrorKind → ResultCode
  | .nullState => 1
  | .nullProtocol => 2
  | .nullPlatform => 3
  | .invalidStage => 4
  | .pulseTooShort => 5
  | .unexpectedLineHigh => 6
  | .symbolPeriodTooLong => 7
  | .inverseMismatch => 8

/-- The code of a result (R76). -/
def Result.code : Result → ResultCode
  | .ok => 0
  | .error k => k.code

/-- The 4-bit code in the response to the latest request (R76). -/
def State.responseCode (s : State) : Option ResultCode := s.response.map Result.code

end Sys2Proof.Machine
end

