-- ==== Sys2Proof/Machine/Ops.lean ====
section
/-! DEFINITION. The shared operations: reading and writing DecoderState registers, the host's reads, how a request ends
(`Ok` or an error, in place of taking an exception), recovery, and taking the next request. -/

namespace Sys2Proof.Machine

/-! ## DecoderState registers -/

/-- `R.stage <- v` (R11). -/
def DecoderState.setStage (d : DecoderState) (v : StageCode) : DecoderState := { d with stage := v }

/-- `R.bit_idx <- v` (R11). -/
def DecoderState.setBitIdx (d : DecoderState) (v : Count) : DecoderState := { d with bitIdx := v }

/-- `R.symbol_start_usecs <- t` (R11). -/
def DecoderState.setSymbolStart (d : DecoderState) (t : Timestamp) : DecoderState := { d with symbolStart := t }

/-- `reg(F)` of 42_stage_handlers.md section 2. -/
def DecoderState.field (d : DecoderState) : Field → FieldWord
  | .addr => d.addr
  | .addrInv => d.invAddr
  | .cmd => d.cmd
  | .cmdInv => d.invCmd

/-- `R.reg(F) <- v` (R161). -/
def DecoderState.setField (d : DecoderState) : Field → FieldWord → DecoderState
  | .addr, v => { d with addr := v }
  | .addrInv, v => { d with invAddr := v }
  | .cmd, v => { d with cmd := v }
  | .cmdInv, v => { d with invCmd := v }

/-- `mask(n)` = `2^n - 1` (R11). -/
def mask (n : Nat) : FieldWord := BitVec.ofNat 255 (2 ^ n - 1)

/-! ## The host's reads (R38) -/

/-- The width of a DecoderState register under the machine's parameters (R20). -/
def Reg.width (a : Params) : Reg → Nat
  | .s0 => a.widths.wStage
  | .s1 => a.widths.wCnt
  | .s2 => Config.wTs
  | .s3 => a.widths.wField
  | .s4 => a.widths.wField
  | .s5 => a.widths.wField
  | .s6 => a.widths.wField

/-- A host read of a DecoderState register: the whole register, with no side effect (R38, R54). -/
def hostRead (s : State) : (r : Reg) → BitVec (r.width s.params)
  | .s0 => s.regs.stage.setWidth s.params.widths.wStage
  | .s1 => s.regs.bitIdx.setWidth s.params.widths.wCnt
  | .s2 => s.regs.symbolStart
  | .s3 => s.regs.addr.setWidth s.params.widths.wField
  | .s4 => s.regs.cmd.setWidth s.params.widths.wField
  | .s5 => s.regs.invAddr.setWidth s.params.widths.wField
  | .s6 => s.regs.invCmd.setWidth s.params.widths.wField

/-- The width of a configuration field under the machine's parameters (R31, R33). -/
def ConfigReg.width (a : Params) : ConfigReg → Nat
  | .p0 => a.widths.wCnt
  | .p1 => a.widths.wCnt
  | .p2 => a.widths.wDur
  | .p3 => a.widths.wDur
  | .p4 => a.widths.wDur
  | .p5 => a.widths.wDur
  | .p6 => a.widths.wDur
  | .p7 => a.widths.wDur
  | .p8 => 8
  | .q0 => a.widths.wDur

/-- `C.f`: a field of the presented configuration by its number (R11, R31, R33). -/
def configRead (s : State) : (r : ConfigReg) → BitVec (r.width s.params)
  | .p0 => s.protocol.addressBits.setWidth s.params.widths.wCnt
  | .p1 => s.protocol.commandBits.setWidth s.params.widths.wCnt
  | .p2 => s.protocol.startPulse.setWidth s.params.widths.wDur
  | .p3 => s.protocol.startPeriod.setWidth s.params.widths.wDur
  | .p4 => s.protocol.stopPulse.setWidth s.params.widths.wDur
  | .p5 => s.protocol.dataBitPulse.setWidth s.params.widths.wDur
  | .p6 => s.protocol.zeroPeriod.setWidth s.params.widths.wDur
  | .p7 => s.protocol.onePeriod.setWidth s.params.widths.wDur
  | .p8 => s.protocol.verifyFlags
  | .q0 => s.platform.tolerance.setWidth s.params.widths.wDur

/-! ## How a request ends -/

/-- `return Ok` after the request's writes: they are in `s` already and appear together (R11, R55, R105). -/
def returnOk (s : State) : Host.Outcome State Fault Refusal :=
  .next { s with response := some .ok }

/-- `raise k`: the request ends with an error result and no DecoderState write; `err_seen` becomes 1 (R11, R37, R105,
R213). This is all that takes the place of taking an exception: no vector, no saved register, no mode change. -/
def raise (k : ErrorKind) (s : State) : Host.Outcome State Fault Refusal :=
  .next { s with errSeen := true, response := some (.error k) }

/-- INIT's writes (R100), the only recovery from an error (R214): all seven registers 0 and `err_seen` 0. -/
def recover (s : State) : State :=
  { s with regs := DecoderState.zero, errSeen := false }

/-! ## The host's side -/

/-- The state in which a request is performed: it has left the host's queue and its configuration is on the port
(R34, R54, R57). -/
def present (r : Request) (rest : List Request) (s : State) : State :=
  { s with requests := rest, protocol := r.protocol, platform := r.platform }

/-- The next request in the host's issue order, and the state in which it is performed (R57). -/
def fetch (s : State) : Option (Request × State) :=
  match s.requests with
  | [] => none
  | r :: rest => some (r, present r rest s)

/-- The host issues one request, to be performed next. -/
def issue (r : Request) (s : State) : State := { s with requests := r :: s.requests }

end Sys2Proof.Machine
end

