-- ==== Sys2Proof/Machine/Operands.lean ====
section
/-! DEFINITION. What a handler reads: the elapsed time, the band bounds, the periods, the field widths, the stage that
follows a field, and the admission of the presented configuration. Comparisons are on natural numbers (R11). -/

namespace Sys2Proof.Machine

/-- Elapsed time `e` (R130): `(t - symbol_start_usecs) mod 2^64`. -/
def elapsed (t : Timestamp) (d : DecoderState) : Nat := (t - d.symbolStart).toNat

/-- `lo(exp)` (R131), on naturals; admission makes `exp >= T` wherever it is used. -/
def lo (exp : Duration) (pl : PlatformConfig) : Nat := exp.toNat - pl.tolerance.toNat

/-- `hi(exp)` (R131), on naturals. -/
def hi (exp : Duration) (pl : PlatformConfig) : Nat := exp.toNat + pl.tolerance.toNat

/-- `S`, the shorter period (R107, R132). -/
def ProtocolConfig.shorter (p : ProtocolConfig) : Duration :=
  if p.zeroPeriod.toNat ≤ p.onePeriod.toNat then p.zeroPeriod else p.onePeriod

/-- `L`, the longer period (R107, R132). -/
def ProtocolConfig.longer (p : ProtocolConfig) : Duration :=
  if p.zeroPeriod.toNat ≤ p.onePeriod.toNat then p.onePeriod else p.zeroPeriod

/-- `sbit`, the bit value of the shorter period, by `BIT_ASSIGN` (R132). -/
def shorterBit (a : BitAssign) (p : ProtocolConfig) : Bool :=
  match a with
  | .byPeriod => !decide (p.zeroPeriod.toNat < p.onePeriod.toNat)
  | .upstreamFixed => false

/-- `width(F)` (42_stage_handlers.md section 2). -/
def ProtocolConfig.width (p : ProtocolConfig) : Field → Count
  | .addr => p.addressBits
  | .addrInv => p.addressBits
  | .cmd => p.commandBits
  | .cmdInv => p.commandBits

/-- `next(Addr)` (R163). -/
def nextAfterAddr (p : ProtocolConfig) : StageCode := if p.addrVerifyInverse then 3 else 4

/-- `next(AddrInv)` (R164). -/
def nextAfterAddrInv : StageCode := 4

/-- The flag that `POST_CMD_SELECT` names (R170). -/
def postCmdFlag (a : PostCmdSelect) (p : ProtocolConfig) : Bool :=
  match a with
  | .cmdFlag => p.cmdVerifyInverse
  | .addrFlag => p.addrVerifyInverse

/-- `next(Cmd)` (R170). -/
def nextAfterCmd (a : PostCmdSelect) (p : ProtocolConfig) : StageCode := if postCmdFlag a p then 5 else 6

/-- `next(CmdInv)` (R171). -/
def nextAfterCmdInv : StageCode := 6

/-! ## Admission (R107) -/

/-- Every value fits the width of its field (R31, R33): `W_CNT` bits for a count, `W_DUR` for a duration or the tolerance. D2:
"configs beyond the widths are not admitted". -/
def valuesFit (w : Widths) (p : ProtocolConfig) (pl : PlatformConfig) : Bool :=
  decide (p.addressBits.toNat < 2 ^ w.wCnt) && decide (p.commandBits.toNat < 2 ^ w.wCnt)
    && decide (p.startPulse.toNat < 2 ^ w.wDur) && decide (p.startPeriod.toNat < 2 ^ w.wDur)
    && decide (p.stopPulse.toNat < 2 ^ w.wDur) && decide (p.dataBitPulse.toNat < 2 ^ w.wDur)
    && decide (p.zeroPeriod.toNat < 2 ^ w.wDur) && decide (p.onePeriod.toNat < 2 ^ w.wDur)
    && decide (pl.tolerance.toNat < 2 ^ w.wDur)

/-- A1 `addr_width`. -/
def addrWidthOk (a : Params) (p : ProtocolConfig) : Bool :=
  decide (1 ≤ p.addressBits.toNat) && decide (p.addressBits.toNat ≤ a.widths.wField)

/-- A2 `cmd_width`. -/
def cmdWidthOk (a : Params) (p : ProtocolConfig) : Bool :=
  decide (1 ≤ p.commandBits.toNat) && decide (p.commandBits.toNat ≤ a.widths.wField)

/-- A3 `durations_positive`. -/
def durationsPositive (p : ProtocolConfig) : Bool :=
  decide (0 < p.startPulse.toNat) && decide (0 < p.startPeriod.toNat) && decide (0 < p.stopPulse.toNat)
    && decide (0 < p.dataBitPulse.toNat) && decide (0 < p.zeroPeriod.toNat) && decide (0 < p.onePeriod.toNat)

/-- A4 `periods_differ`. -/
def periodsDiffer (p : ProtocolConfig) : Bool := decide (p.zeroPeriod ≠ p.onePeriod)

/-- A5 `tolerance_fits`. -/
def toleranceFits (p : ProtocolConfig) (pl : PlatformConfig) : Bool :=
  decide (pl.tolerance.toNat ≤ p.dataBitPulse.toNat) && decide (pl.tolerance.toNat ≤ p.startPulse.toNat)
    && decide (pl.tolerance.toNat ≤ p.stopPulse.toNat)

/-- A6 `data_bands_ordered`. -/
def dataBandsOrdered (p : ProtocolConfig) (pl : PlatformConfig) : Bool :=
  decide (hi p.dataBitPulse pl < lo p.shorter pl) && decide (hi p.shorter pl < lo p.longer pl)

/-- A7 `start_bands_ordered`. -/
def startBandsOrdered (p : ProtocolConfig) (pl : PlatformConfig) : Bool :=
  decide (hi p.startPulse pl < lo p.startPeriod pl)

/-- A8 `flags_reserved_zero`. -/
def flagsReservedZero (p : ProtocolConfig) : Bool := p.reservedFlags == 0

/-- A9 `inverse_supported`. -/
def inverseSupported (a : InverseSupport) (p : ProtocolConfig) : Bool :=
  match a with
  | .implemented => true
  | .rejectConfig => !p.addrVerifyInverse && !p.cmdVerifyInverse

/-- `Admit(C)` (R107): the conjunction of A1 to A9, on values that fit their fields (D2). -/
def admits (a : Params) (p : ProtocolConfig) (pl : PlatformConfig) : Bool :=
  valuesFit a.widths p pl && addrWidthOk a p && cmdWidthOk a p && durationsPositive p && periodsDiffer p && toleranceFits p pl
    && dataBandsOrdered p pl && startBandsOrdered p pl && flagsReservedZero p && inverseSupported a.inverseSupport p

/-- The configuration on the port passes admission. -/
def State.admitted (s : State) : Bool := admits s.params s.protocol s.platform

end Sys2Proof.Machine
end

