-- ==== Sys2Proof/Machine/Classifier.lean ====
section
/-! DEFINITION. The three timing-window classifiers (41_classifier.md): pure functions of the elapsed time, the level
and the configuration (R142). The bands are tested in the spec's order. -/

namespace Sys2Proof.Machine

/-- `ClassifyData(e, level, C)` (R133), with `sbit` by `BIT_ASSIGN` (R132). -/
def classifyData (a : BitAssign) (p : ProtocolConfig) (pl : PlatformConfig) (e : Nat) (l : Level) : Classified Bool :=
  if e < lo p.dataBitPulse pl then
    match l with
    | .low => .errs .pulseTooShort
    | .high => .continues
  else if e ≤ hi p.dataBitPulse pl then .continues
  else if e < lo p.shorter pl then
    match l with
    | .low => .continues
    | .high => .errs .unexpectedLineHigh
  else if e ≤ hi p.shorter pl then
    match l with
    | .low => .continues
    | .high => .completes (shorterBit a p)
  else if e < lo p.longer pl then
    match l with
    | .low => .continues
    | .high => .errs .unexpectedLineHigh
  else if e ≤ hi p.longer pl then
    match l with
    | .low => .continues
    | .high => .completes (!shorterBit a p)
  else .errs .symbolPeriodTooLong

/-- `ClassifyStart(e, level, C)` (R137). -/
def classifyStart (p : ProtocolConfig) (pl : PlatformConfig) (e : Nat) (l : Level) : Classified Unit :=
  if e < lo p.startPulse pl then
    match l with
    | .low => .errs .pulseTooShort
    | .high => .continues
  else if e ≤ hi p.startPulse pl then .continues
  else if e < lo p.startPeriod pl then
    match l with
    | .low => .continues
    | .high => .errs .unexpectedLineHigh
  else if e ≤ hi p.startPeriod pl then
    match l with
    | .low => .continues
    | .high => .completes ()
  else .errs .symbolPeriodTooLong

/-- What a low sample after the stop band gives, by `STOP_LATE_LOW` (R140). -/
def stopLateLow (a : StopLateLow) : Classified Unit :=
  match a with
  | .symbolPeriodTooLong => .errs .symbolPeriodTooLong
  | .finish => .completes ()

/-- `ClassifyStop(e, level, C)` (R140). -/
def classifyStop (a : StopLateLow) (p : ProtocolConfig) (pl : PlatformConfig) (e : Nat) (l : Level) : Classified Unit :=
  if e < lo p.stopPulse pl then
    match l with
    | .low => .errs .pulseTooShort
    | .high => .continues
  else if e ≤ hi p.stopPulse pl then
    match l with
    | .low => .completes ()
    | .high => .continues
  else
    match l with
    | .low => stopLateLow a
    | .high => .errs .unexpectedLineHigh

end Sys2Proof.Machine
end

