-- ==== Sys2Proof/Decode.lean ====
section
/-! DEFINITION. The two-level decoder of R77 (the `op` field, then the `stage` register) and the encoder, both from the
field table of R70. -/

namespace Sys2Proof

/-- Why a request word spells no operation. -/
inductive DecodeError
  /-- `op` is 0x2 to 0xF (R71, R74). -/
  | reservedOp (op : OpCode)
  deriving DecidableEq, Repr

/-- `op` = `Q[71:68]` (R70). -/
def opField (w : RequestWord) : OpCode := w.extractLsb' 68 4

/-- A level bit (R13): 1 is high. -/
def levelOfBit (b : Bool) : Level := if b then .high else .low

/-- The bit of a level (R13). -/
def Level.bit : Level → Bool
  | .low => false
  | .high => true

/-- Operand assembly for SAMPLE (R70, R72): `plat_present` 67, `proto_present` 66, `state_present` 65, `sample` 64,
`timestamp_usecs` [63:0]. -/
def sampleArgsOf (w : RequestWord) : SampleArgs where
  sample       := levelOfBit (w.getLsbD 64)
  timestamp    := w.extractLsb' 0 64
  statePresent := w.getLsbD 65
  protoPresent := w.getLsbD 66
  platPresent  := w.getLsbD 67

/-- The stage class of a `stage` value (R75). -/
def rowOfStage (stage : StageCode) : StageRow :=
  if stage = 0 then .idle
  else if stage = 1 then .startSymbol
  else if stage = 2 then .addr
  else if stage = 3 then .addrInv
  else if stage = 4 then .cmd
  else if stage = 5 then .cmdInv
  else if stage = 6 then .stopSymbol
  else if stage = 7 then .finished
  else .invalidStage

/-- The decoder of R77: `op` selects INIT or SAMPLE or refuses (R71, R74); for SAMPLE the `stage` register selects the
row. INIT ignores bits [67:0] (R73). -/
def decode (stage : StageCode) (w : RequestWord) : Except DecodeError Instr :=
  if opField w = 0x0 then .ok ((rowOfStage stage).instr (sampleArgsOf w))
  else if opField w = 0x1 then .ok .init
  else .error (.reservedOp (opField w))

/-- One bit of the request word at its position (R70). -/
def bitAt (b : Bool) (n : Nat) : RequestWord := (BitVec.ofBool b).setWidth 72 <<< n

/-- The `op` field at its position, [71:68] (R70). -/
def opAt (op : OpCode) : RequestWord := op.setWidth 72 <<< 68

/-- The canonical INIT word (R71, R73): `op` = 0x1 and bits [67:0] all 0. -/
def encodeInit : RequestWord := opAt 0x1

/-- The SAMPLE word of its operands (R70, R71): `op` = 0x0, and each field at its bits. -/
def encodeSample (q : SampleArgs) : RequestWord :=
  opAt 0x0 ||| bitAt q.platPresent 67 ||| bitAt q.protoPresent 66 ||| bitAt q.statePresent 65
    ||| bitAt q.sample.bit 64 ||| q.timestamp.setWidth 72

/-- The request word of a request (R70 to R73). The nine SAMPLE rows share one word: the stage is not a bit of it (R77). -/
def encode : Instr → RequestWord
  | .init => encodeInit
  | .sampleIdle q => encodeSample q
  | .sampleStartSymbol q => encodeSample q
  | .sampleAddr q => encodeSample q
  | .sampleAddrInv q => encodeSample q
  | .sampleCmd q => encodeSample q
  | .sampleCmdInv q => encodeSample q
  | .sampleStopSymbol q => encodeSample q
  | .sampleFinished q => encodeSample q
  | .sampleInvalidStage q => encodeSample q

/-- The 72-bit word whose low `nbits` bits are those of `w` and whose other bits are 0 (R78: one request length). -/
def wordOfTable (nbits w : Nat) : RequestWord := BitVec.ofNat 72 (w % 2 ^ nbits)

/-- The instruction of a table word under the reset value of `stage` (R20, R77: the word alone does not name a SAMPLE
row; log entry 5). -/
def decodeTableWord (nbits w : Nat) : Option Instr :=
  match decode 0 (wordOfTable nbits w) with
  | .ok i => some i
  | .error _ => none

end Sys2Proof
end

