-- ==== Sys2Proof/Machine/Sample.lean ====
section
/-! DEFINITION. The SAMPLE dispatcher (R101 to R106): the checks every SAMPLE row makes, in their order, before the
handler that the row's stage selects. The dispatcher writes no DecoderState register (R106). -/

namespace Sys2Proof.Machine

/-- SAMPLE's checks in the order of R101 and R212, then the row's handler. The last check is the row's own stage
selector (R77): the step never fails it. -/
def sample (row : StageRow) (q : SampleArgs) (handler : State → Host.Outcome State Fault Refusal) (s : State) :
    Host.Outcome State Fault Refusal :=
  if q.statePresent = false then raise .nullState s
  else if q.protoPresent = false then raise .nullProtocol s
  else if q.platPresent = false then raise .nullPlatform s
  else if s.admitted = false then .refused .configNotAdmitted
  else if rowOfStage s.regs.stage ≠ row then .refused .rowNotSelected
  else handler s

end Sys2Proof.Machine
end

