-- ==== Sys2Proof/Machine/Fields.lean ====
section
/-! DEFINITION. The four field stages: Addr, AddrInv, Cmd and CmdInv, over one accumulator (42_stage_handlers.md
sections 2 and 4). -/

namespace Sys2Proof.Machine

/-- `v'` of R161: bit `b` at position `bit_idx`, LSB-first, computed in `w` = `W_FIELD` bits (a position they do not have
receives nothing: log entry 9). -/
def accumulated (w : Nat) (f : Field) (b : Bool) (d : DecoderState) : FieldWord :=
  ((d.field f).setWidth w ||| ((BitVec.ofBool b).setWidth w <<< d.bitIdx.toNat)).setWidth 255

/-- The field end test of R162: `n' = width(F)`, on naturals, after the increment. -/
def fieldEnds (f : Field) (s : State) : Bool :=
  s.regs.bitIdx.toNat + 1 == (s.protocol.width f).toNat

/-- `R.bit_idx + 1` fits the `W_CNT`-bit register (R20, R161). -/
def incrementFits (s : State) : Bool := decide (s.regs.bitIdx.toNat + 1 < 2 ^ s.params.widths.wCnt)

/-- What `R.bit_idx <- R.bit_idx + 1` leaves in the register (R161): where the sum does not fit it, a free value of its width. -/
def nextBitIdx (s : State) : Count :=
  if incrementFits s then s.regs.bitIdx + 1
  else ((Config.freeBitIdx s.draws).setWidth s.params.widths.wCnt).setWidth 16

/-- The free values used by the increment. -/
def nextDraws (s : State) : Nat :=
  if incrementFits s then s.draws else s.draws + 1

/-- Accumulate one data bit (R161), then the field end (R162) with `next(F)` = `nxt`. -/
def accumulate (f : Field) (nxt : StageCode) (b : Bool) (t : Timestamp) (s : State) : State :=
  let d := (s.regs.setField f (accumulated s.params.widths.wField f b s.regs)).setSymbolStart t
  if fieldEnds f s then { s with regs := (d.setBitIdx 0).setStage nxt }
  else { s with regs := d.setBitIdx (nextBitIdx s), draws := nextDraws s }

/-- The complement test of R165, with `p` the primary field's value: `v' = ~p & mask(w)`. -/
def inverseMatches (f : Field) (p : FieldWord) (b : Bool) (s : State) : Bool :=
  accumulated s.params.widths.wField f b s.regs == (~~~p &&& mask (s.protocol.width f).toNat)

/-- A primary field stage (R167, R169): classify, then accumulate. -/
def primaryField (f : Field) (nxt : StageCode) (l : Level) (t : Timestamp) (s : State) :
    Host.Outcome State Fault Refusal :=
  match classifyData s.params.bitAssign s.protocol s.platform (elapsed t s.regs) l with
  | .errs k => raise k s
  | .continues => returnOk s
  | .completes b => returnOk (accumulate f nxt b t s)

/-- An inverse field stage (R168, R171): as a primary field, but at the field end the complete value must be the
complement of the primary field `p` (R165); on a mismatch nothing is written, not even the last bit. -/
def inverseField (f : Field) (nxt : StageCode) (p : FieldWord) (l : Level) (t : Timestamp) (s : State) :
    Host.Outcome State Fault Refusal :=
  match classifyData s.params.bitAssign s.protocol s.platform (elapsed t s.regs) l with
  | .errs k => raise k s
  | .continues => returnOk s
  | .completes b =>
    if fieldEnds f s && !inverseMatches f p b s then raise .inverseMismatch s
    else returnOk (accumulate f nxt b t s)

/-- The Addr handler (R167). -/
def handleAddr (l : Level) (t : Timestamp) (s : State) : Host.Outcome State Fault Refusal :=
  primaryField .addr (nextAfterAddr s.protocol) l t s

/-- SAMPLE at Addr (R167). -/
def execSampleAddr (q : SampleArgs) (s : State) : Host.Outcome State Fault Refusal :=
  sample .addr q (handleAddr q.sample q.timestamp) s

/-- The AddrInv handler (R168). -/
def handleAddrInv (l : Level) (t : Timestamp) (s : State) : Host.Outcome State Fault Refusal :=
  inverseField .addrInv nextAfterAddrInv s.regs.addr l t s

/-- SAMPLE at AddrInv (R168). -/
def execSampleAddrInv (q : SampleArgs) (s : State) : Host.Outcome State Fault Refusal :=
  sample .addrInv q (handleAddrInv q.sample q.timestamp) s

/-- The Cmd handler (R169). -/
def handleCmd (l : Level) (t : Timestamp) (s : State) : Host.Outcome State Fault Refusal :=
  primaryField .cmd (nextAfterCmd s.params.postCmdSelect s.protocol) l t s

/-- SAMPLE at Cmd (R169). -/
def execSampleCmd (q : SampleArgs) (s : State) : Host.Outcome State Fault Refusal :=
  sample .cmd q (handleCmd q.sample q.timestamp) s

/-- The CmdInv handler (R171). -/
def handleCmdInv (l : Level) (t : Timestamp) (s : State) : Host.Outcome State Fault Refusal :=
  inverseField .cmdInv nextAfterCmdInv s.regs.cmd l t s

/-- SAMPLE at CmdInv (R171). -/
def execSampleCmdInv (q : SampleArgs) (s : State) : Host.Outcome State Fault Refusal :=
  sample .cmdInv q (handleCmdInv q.sample q.timestamp) s

end Sys2Proof.Machine
end

