-- ==== Sys2Proof/Machine/Init.lean ====
section
/-! DEFINITION. The INIT family: one request. -/

namespace Sys2Proof.Machine

/-- INIT (R100): always `Ok`, in every stage; it reads no configuration. -/
def execInit (s : State) : Host.Outcome State Fault Refusal := returnOk (recover s)

end Sys2Proof.Machine
end

