-- ==== Sys2Proof/Machine/Symbols.lean ====
section
/-! DEFINITION. The SAMPLE rows that decode no field: Idle, StartSymbol and StopSymbol. -/

namespace Sys2Proof.Machine

/-- The Idle handler (R160): the first high sample starts a frame; a low sample does nothing. -/
def handleIdle (l : Level) (t : Timestamp) (s : State) : Host.Outcome State Fault Refusal :=
  match l with
  | .low => returnOk s
  | .high => returnOk { s with regs := (s.regs.setSymbolStart t).setStage 1 }

/-- SAMPLE at Idle (R160). -/
def execSampleIdle (q : SampleArgs) (s : State) : Host.Outcome State Fault Refusal :=
  sample .idle q (handleIdle q.sample q.timestamp) s

/-- The StartSymbol handler (R166). -/
def handleStartSymbol (l : Level) (t : Timestamp) (s : State) : Host.Outcome State Fault Refusal :=
  match classifyStart s.protocol s.platform (elapsed t s.regs) l with
  | .errs k => raise k s
  | .continues => returnOk s
  | .completes _ => returnOk { s with regs := (s.regs.setSymbolStart t).setStage 2 }

/-- SAMPLE at StartSymbol (R166). -/
def execSampleStartSymbol (q : SampleArgs) (s : State) : Host.Outcome State Fault Refusal :=
  sample .startSymbol q (handleStartSymbol q.sample q.timestamp) s

/-- The StopSymbol handler (R172). It does not write `symbol_start_usecs`. -/
def handleStopSymbol (l : Level) (t : Timestamp) (s : State) : Host.Outcome State Fault Refusal :=
  match classifyStop s.params.stopLateLow s.protocol s.platform (elapsed t s.regs) l with
  | .errs k => raise k s
  | .continues => returnOk s
  | .completes _ => returnOk { s with regs := s.regs.setStage 7 }

/-- SAMPLE at StopSymbol (R172). -/
def execSampleStopSymbol (q : SampleArgs) (s : State) : Host.Outcome State Fault Refusal :=
  sample .stopSymbol q (handleStopSymbol q.sample q.timestamp) s

end Sys2Proof.Machine
end

