-- ==== Sys2Proof/Machine/Terminal.lean ====
section
/-! DEFINITION. The SAMPLE rows that no handler serves: the terminal stage Finished and the illegal stage values. -/

namespace Sys2Proof.Machine

/-- `finished_policy()` (R109, R173): no register changes under either policy. -/
def finishedPolicy (s : State) : Host.Outcome State Fault Refusal :=
  match s.params.finishedPolicy with
  | .absorb => returnOk s
  | .invalidStage => raise .invalidStage s

/-- SAMPLE at Finished (R109, R173). -/
def execSampleFinished (q : SampleArgs) (s : State) : Host.Outcome State Fault Refusal :=
  sample .finished q finishedPolicy s

/-- SAMPLE at an illegal stage value, 8 to 255 (R108). -/
def execSampleInvalidStage (q : SampleArgs) (s : State) : Host.Outcome State Fault Refusal :=
  sample .invalidStage q (raise .invalidStage) s

end Sys2Proof.Machine
end

