-- ==== Sys2Proof/Machine/Dispatch.lean ====
section
/-! DEFINITION. One arm per row of the opcode table. -/

namespace Sys2Proof.Machine

def exec (i : Instr) (s : State) : Host.Outcome State Fault Refusal :=
  match i with
  | .init => Sys2Proof.Machine.execInit s
  | .sampleIdle q => Sys2Proof.Machine.execSampleIdle q s
  | .sampleStartSymbol q => Sys2Proof.Machine.execSampleStartSymbol q s
  | .sampleAddr q => Sys2Proof.Machine.execSampleAddr q s
  | .sampleAddrInv q => Sys2Proof.Machine.execSampleAddrInv q s
  | .sampleCmd q => Sys2Proof.Machine.execSampleCmd q s
  | .sampleCmdInv q => Sys2Proof.Machine.execSampleCmdInv q s
  | .sampleStopSymbol q => Sys2Proof.Machine.execSampleStopSymbol q s
  | .sampleFinished q => Sys2Proof.Machine.execSampleFinished q s
  | .sampleInvalidStage q => Sys2Proof.Machine.execSampleInvalidStage q s

end Sys2Proof.Machine
end

