-- ==== Sys2Proof/Machine/Scenario.lean ====
section
/-! DEFINITION. The configuration of the source's test scenario (R252; CFG8 of 95_test_vectors.md). It is data of that
test, not a constant of NECDEC: only `State.withFetchWord` and the tests use it. -/

namespace Sys2Proof.Machine

/-- The scenario's ProtocolConfig: 16-bit fields, no inverse verification (R252). -/
def scenarioProtocol : ProtocolConfig where
  addressBits  := 16
  commandBits  := 16
  startPulse   := 9000
  startPeriod  := 13500
  stopPulse    := 562
  dataBitPulse := 562
  zeroPeriod   := 1124
  onePeriod    := 2249
  verifyFlags  := 0

/-- The scenario's tolerance (R252). -/
def scenarioPlatform : PlatformConfig := { tolerance := 75 }

/-- A request word presented with the scenario's configuration. -/
def scenarioRequest (w : RequestWord) : Request where
  word     := w
  protocol := scenarioProtocol
  platform := scenarioPlatform

end Sys2Proof.Machine
end

