-- ==== Sys2Proof/Machine/Step.lean ====
section
/-! DEFINITION. One step of the block: one request, whole (R3, R6, R55). -/

namespace Sys2Proof.Machine

/-- One step: the next request of the host is decoded under the current `stage` (R77) and performed with the
configuration presented beside it (R34). A reserved `op` is refused (R74). With no request the block holds its state and
does nothing (R6, R223; log entry 4). -/
def step (s : State) : Host.Outcome State Fault Refusal :=
  match fetch s with
  | none => .next s
  | some (r, s') =>
    match decode s.regs.stage r.word with
    | .ok i => exec i s'
    | .error (.reservedOp op) => .refused (.reservedOp op)

/-- The host issues the word `w` of `nbits` bits as its next request, presenting the configuration of the source's
scenario (log entry 6): the very next step performs it. -/
def State.withFetchWord (s : State) (nbits w : Nat) : State :=
  issue (scenarioRequest (wordOfTable nbits w)) s

end Sys2Proof.Machine
end

