-- ==== Sys2Proof/Machine/Pseudo.lean ====
section
/-! DEFINITION. The pseudo-instructions of R80. The block sees only the SAMPLE words they expand to. Timestamps are
added modulo 2^64, the width of the request's field (log entry 12). -/

namespace Sys2Proof.Machine

/-- The canonical SAMPLE word of a level and a timestamp: every presence bit set (R74, R79). -/
def sampleWord (l : Level) (t : Timestamp) : RequestWord :=
  encodeSample { sample := l, timestamp := t, statePresent := true, protoPresent := true, platPresent := true }

/-- `MARK t` (R80). -/
def pseudoMark (t : Timestamp) : RequestWord := sampleWord .high t

/-- `SPACE t` (R80). -/
def pseudoSpace (t : Timestamp) : RequestWord := sampleWord .low t

/-- `SYM t0, pulse, period` (R80): one sample at the falling edge and one at the next rising edge. -/
def pseudoSym (t0 : Timestamp) (pulse period : Duration) : List RequestWord :=
  [pseudoSpace (t0 + pulse.setWidth 64), pseudoMark (t0 + period.setWidth 64)]

/-- The period of a data bit (R80). -/
def ProtocolConfig.bitPeriod (p : ProtocolConfig) (b : Bool) : Duration := if b then p.onePeriod else p.zeroPeriod

/-- The data bits of a frame, from the rising edge at `t`, and the falling edge of its stop mark (R80). -/
def pseudoBits (p : ProtocolConfig) : Timestamp → List Bool → List RequestWord
  | t, [] => [pseudoSpace (t + p.stopPulse.setWidth 64)]
  | t, b :: bs =>
    pseudoSym t p.dataBitPulse (p.bitPeriod b) ++ pseudoBits p (t + (p.bitPeriod b).setWidth 64) bs

/-- `FRAME t0, bits` (R80). -/
def pseudoFrame (p : ProtocolConfig) (t0 : Timestamp) (bits : List Bool) : List RequestWord :=
  pseudoMark t0 :: (pseudoSym t0 p.startPulse p.startPeriod ++ pseudoBits p (t0 + p.startPeriod.setWidth 64) bits)

/-- Request words presented with one configuration (R246). -/
def presented (p : ProtocolConfig) (pl : PlatformConfig) (ws : List RequestWord) : List Request :=
  ws.map fun w => { word := w, protocol := p, platform := pl }

end Sys2Proof.Machine
end

