-- ==== Sys2Proof/Machine/Asm.lean ====
section
/-! DEFINITION. The textual syntax of R79, one request per line, over the characters of the line. It is notation: the
block sees only the words. -/

namespace Sys2Proof.Machine

/-- Blanks between the parts of a line. -/
def asmBlank (c : Char) : Bool := c == ' ' || c == '\t'

/-- A part of a line without the blanks around it. -/
def asmTrim (cs : List Char) : List Char := ((cs.dropWhile asmBlank).reverse.dropWhile asmBlank).reverse

/-- The parts of a line between its commas. -/
def asmParts : List Char → List (List Char)
  | [] => [[]]
  | c :: cs =>
    if c == ',' then [] :: asmParts cs
    else
      match asmParts cs with
      | [] => [[c]]
      | w :: ws => (c :: w) :: ws

/-- A digit in base 10 or 16. -/
def asmDigit (base : Nat) (c : Char) : Option Nat :=
  let n := c.toNat
  let d := if 48 ≤ n ∧ n ≤ 57 then n - 48
    else if 97 ≤ n ∧ n ≤ 102 then n - 87
    else if 65 ≤ n ∧ n ≤ 70 then n - 55
    else 16
  if d < base then some d else none

/-- Digits after the value read so far. -/
def asmDigits (base : Nat) : Nat → List Char → Option Nat
  | acc, [] => some acc
  | acc, c :: cs =>
    match asmDigit base c with
    | some d => asmDigits base (base * acc + d) cs
    | none => none

/-- A decimal or `0x` hexadecimal number below 2^64 (R79). -/
def asmTimestamp (cs : List Char) : Option Timestamp :=
  let n? := match cs with
    | '0' :: 'x' :: c :: ds => asmDigits 16 0 (c :: ds)
    | c :: ds => asmDigits 10 0 (c :: ds)
    | [] => none
  match n? with
  | some n => if n < 2 ^ 64 then some (BitVec.ofNat 64 n) else none
  | none => none

/-- `<level>`: `0`, `1`, `L` or `H` (R79). -/
def asmLevel : List Char → Option Level
  | ['0'] => some .low
  | ['L'] => some .low
  | ['1'] => some .high
  | ['H'] => some .high
  | _ => none

/-- One suffix: `!state` clears bit 65, `!proto` bit 66, `!plat` bit 67 (R79). -/
def asmSuffix (q : SampleArgs) (cs : List Char) : Option SampleArgs :=
  if cs = ['!', 's', 't', 'a', 't', 'e'] then some { q with statePresent := false }
  else if cs = ['!', 'p', 'r', 'o', 't', 'o'] then some { q with protoPresent := false }
  else if cs = ['!', 'p', 'l', 'a', 't'] then some { q with platPresent := false }
  else none

/-- The suffixes in turn. -/
def asmSuffixes : SampleArgs → List (List Char) → Option SampleArgs
  | q, [] => some q
  | q, c :: cs =>
    match asmSuffix q c with
    | some q' => asmSuffixes q' cs
    | none => none

/-- `SAMPLE <level>, <timestamp>` with its suffixes (R79). -/
def asmSample (level timestamp : List Char) (suffixes : List (List Char)) : Option RequestWord :=
  match asmLevel level, asmTimestamp timestamp with
  | some l, some t =>
    (asmSuffixes { sample := l, timestamp := t, statePresent := true, protoPresent := true, platPresent := true }
      suffixes).map encodeSample
  | _, _ => none

/-- The request of one line, `some none` for a line that holds only a comment or blanks, `none` for a line that is not
of the syntax (R79). -/
def assembleLine (line : List Char) : Option (Option RequestWord) :=
  match (asmParts (line.takeWhile (· != ';'))).map asmTrim with
  | [[]] => some none
  | [['I', 'N', 'I', 'T']] => some (some encodeInit)
  | ('S' :: 'A' :: 'M' :: 'P' :: 'L' :: 'E' :: b :: level) :: timestamp :: suffixes =>
    if asmBlank b then (asmSample (asmTrim level) timestamp suffixes).map some else none
  | _ => none

end Sys2Proof.Machine
end

