-- ==== Sys2Proof/Machine/Fleet.lean ====
section
/-! DEFINITION. Several NECDEC instances (R40, R60, R221): each owns its state; a step of one touches no other. -/

namespace Sys2Proof.Machine

/-- Instance `k` of the fleet performs one step. An instance that does not exist performs none. -/
def fleetStep (k : Nat) (f : List State) : Host.Outcome (List State) Fault Refusal :=
  match f[k]? with
  | none => .next f
  | some s =>
    match step s with
    | .next s' => .next (f.set k s')
    | .fault r => .fault r
    | .refused r => .refused r

/-- Two steps, of instance `j` and then of instance `k`. -/
def fleetStepTwo (j k : Nat) (f : List State) : Host.Outcome (List State) Fault Refusal :=
  match fleetStep j f with
  | .next f' => fleetStep k f'
  | .fault r => .fault r
  | .refused r => .refused r

end Sys2Proof.Machine
end

