-- ==== Sys2Proof/Machine/Line.lean ====
section
/-! DEFINITION. The ideal line of R249, in microseconds, and the requests of a host that samples it. -/

namespace Sys2Proof.Machine

/-- The level at a time `t` at or after the rising edge `x` of the first of these data bits: each bit is a mark of
`data_bit_pulse_usecs` in its period, and after the last comes the stop mark. -/
def lineBits (p : ProtocolConfig) : Nat → List Bool → Nat → Level
  | x, [], t => if t < x + p.stopPulse.toNat then .high else .low
  | x, b :: bs, t =>
    if t < x + p.dataBitPulse.toNat then .high
    else if t < x + (p.bitPeriod b).toNat then .low
    else lineBits p (x + (p.bitPeriod b).toNat) bs t

/-- The level at the time `t` of an ideal line whose frame starts with the rising edge at `t0`: low before it, and every
mark and period exactly its configured value. -/
def idealLine (p : ProtocolConfig) (t0 : Nat) (bits : List Bool) (t : Nat) : Level :=
  if t < t0 then .low
  else if t < t0 + p.startPulse.toNat then .high
  else if t < t0 + p.startPeriod.toNat then .low
  else lineBits p (t0 + p.startPeriod.toNat) bits t

/-- The falling edge of the stop mark after these data bits, the first of which starts at `x`. -/
def bitsEnd (p : ProtocolConfig) : Nat → List Bool → Nat
  | x, [] => x + p.stopPulse.toNat
  | x, b :: bs => bitsEnd p (x + (p.bitPeriod b).toNat) bs

/-- The falling edge of the frame's stop mark. -/
def frameEnd (p : ProtocolConfig) (t0 : Nat) (bits : List Bool) : Nat := bitsEnd p (t0 + p.startPeriod.toNat) bits

/-- The marks of these data bits and of the stop mark, each from its rising edge to its falling edge, the first starting at
`x`. -/
def bitsMarks (p : ProtocolConfig) : Nat → List Bool → List (Nat × Nat)
  | x, [] => [(x, x + p.stopPulse.toNat)]
  | x, b :: bs => (x, x + p.dataBitPulse.toNat) :: bitsMarks p (x + (p.bitPeriod b).toNat) bs

/-- The marks of the frame. -/
def frameMarks (p : ProtocolConfig) (t0 : Nat) (bits : List Bool) : List (Nat × Nat) :=
  (t0, t0 + p.startPulse.toNat) :: bitsMarks p (t0 + p.startPeriod.toNat) bits

/-- The SAMPLE words of a host that samples this line at these times. -/
def sampleLine (p : ProtocolConfig) (t0 : Nat) (bits : List Bool) (ts : List Timestamp) : List RequestWord :=
  ts.map fun t => sampleWord (idealLine p t0 bits t.toNat) t

end Sys2Proof.Machine
end

