-- ==== Sys2Proof/Safety.lean ====
section
/-! DEFINITION. What counts as a good run: the invariants of R39, the duties of the host (R243 to R247) and the ways a
session ends (R250). -/

namespace Sys2Proof.Safety

open Sys2Proof.Machine

/-- Stages at or after `Cmd`. -/
abbrev pastAddress (d : DecoderState) : Prop := 4 ≤ d.stage.toNat ∧ d.stage.toNat ≤ 7

/-- The bounds of R39 on `bit_idx`, by stage. -/
abbrev BitIdxBounded (p : ProtocolConfig) (d : DecoderState) : Prop :=
  ((d.stage = 2 ∨ d.stage = 3) → d.bitIdx.toNat < p.addressBits.toNat) ∧
  ((d.stage = 4 ∨ d.stage = 5) → d.bitIdx.toNat < p.commandBits.toNat) ∧
  ((d.stage = 0 ∨ d.stage = 1 ∨ d.stage = 6 ∨ d.stage = 7) → d.bitIdx = 0)

/-- No field register has a bit at or above its configured width (R24, R39). -/
abbrev FieldsWithinWidth (p : ProtocolConfig) (d : DecoderState) : Prop :=
  d.addr.toNat < 2 ^ p.addressBits.toNat ∧ d.invAddr.toNat < 2 ^ p.addressBits.toNat ∧
  d.cmd.toNat < 2 ^ p.commandBits.toNat ∧ d.invCmd.toNat < 2 ^ p.commandBits.toNat

/-- No DecoderState register has a bit at or above its width (R20). -/
abbrev RegistersFit (s : State) : Prop :=
  s.regs.stage.toNat < 2 ^ s.params.widths.wStage ∧ s.regs.bitIdx.toNat < 2 ^ s.params.widths.wCnt ∧
  s.regs.addr.toNat < 2 ^ s.params.widths.wField ∧ s.regs.invAddr.toNat < 2 ^ s.params.widths.wField ∧
  s.regs.cmd.toNat < 2 ^ s.params.widths.wField ∧ s.regs.invCmd.toNat < 2 ^ s.params.widths.wField

/-- The field being accumulated has no bit at or above `bit_idx` (R39). -/
abbrev PartialFieldWithinBitIdx (d : DecoderState) : Prop :=
  (d.stage = 2 → d.addr.toNat < 2 ^ d.bitIdx.toNat) ∧ (d.stage = 3 → d.invAddr.toNat < 2 ^ d.bitIdx.toNat) ∧
  (d.stage = 4 → d.cmd.toNat < 2 ^ d.bitIdx.toNat) ∧ (d.stage = 5 → d.invCmd.toNat < 2 ^ d.bitIdx.toNat)

/-- A field that its stage has not begun to receive is 0 (R39). -/
abbrev LaterFieldsZero (d : DecoderState) : Prop :=
  (d.stage.toNat < 4 → d.cmd = 0 ∧ d.invCmd = 0) ∧ (d.stage.toNat < 3 → d.invAddr = 0)

/-- A verified inverse field is the complement of its primary field (R39). Stage `CmdInv` was passed through exactly when
the flag that `POST_CMD_SELECT` names is set (R170). -/
abbrev InversesAgree (a : Params) (p : ProtocolConfig) (d : DecoderState) : Prop :=
  (pastAddress d → p.addrVerifyInverse = true → d.invAddr = ~~~d.addr &&& mask p.addressBits.toNat) ∧
  ((d.stage = 6 ∨ d.stage = 7) → postCmdFlag a.postCmdSelect p = true →
    d.invCmd = ~~~d.cmd &&& mask p.commandBits.toNat)

/-- The invariants of R39 on a DecoderState, under a configuration. -/
abbrev Reachable (a : Params) (p : ProtocolConfig) (d : DecoderState) : Prop :=
  d.stage.toNat ≤ 7 ∧ BitIdxBounded p d ∧ FieldsWithinWidth p d ∧ PartialFieldWithinBitIdx d ∧ LaterFieldsZero d ∧
  InversesAgree a p d

/-- Every request the host has still to issue presents one configuration (R246). -/
abbrev ConstantConfiguration (p : ProtocolConfig) (pl : PlatformConfig) (s : State) : Prop :=
  ∀ r ∈ s.requests, r.protocol = p ∧ r.platform = pl

/-- The invariant of a session under one configuration held constant. The last two clauses are not in R39: a field that
has not begun to arrive is 0, for the two fields of which R39 does not say so (they make the whole inductive). -/
abbrev SessionInv (p : ProtocolConfig) (pl : PlatformConfig) (s : State) : Prop :=
  ConstantConfiguration p pl s ∧ Reachable s.params p s.regs ∧ (s.regs.stage.toNat < 2 → s.regs.addr = 0) ∧
  (s.regs.stage = 4 → s.regs.invCmd = 0)

/-- R26 and R27: an inverse field that no stage of the session receives stays 0. -/
abbrev UnverifiedInversesZero (p : ProtocolConfig) (pl : PlatformConfig) (s : State) : Prop :=
  ConstantConfiguration p pl s ∧
  (p.addrVerifyInverse = false → s.regs.stage ≠ 3 ∧ s.regs.invAddr = 0) ∧
  (postCmdFlag s.params.postCmdSelect p = false → s.regs.stage ≠ 5 ∧ s.regs.invCmd = 0)

/-- The operation of a pending request is SAMPLE. -/
def isSample (r : Request) : Bool := opField r.word == 0x0

/-- The timestamps of the SAMPLE requests among `rs`, in order. -/
def timestamps (rs : List Request) : List Timestamp := (rs.filter isSample).map fun r => (sampleArgsOf r.word).timestamp

/-- R244: each SAMPLE's timestamp is at least the previous one's. -/
def Monotonic (rs : List Request) : Prop := (timestamps rs).Pairwise fun t u => t.toNat ≤ u.toNat

/-- R243, R249: no two consecutive SAMPLE timestamps are more than `g` microseconds apart. -/
def gapsWithin (g : Nat) : List Timestamp → Bool
  | t :: u :: ts => decide (u.toNat ≤ t.toNat + g) && gapsWithin g (u :: ts)
  | _ => true

/-- R249: the host samples a frame that starts at `t0` and whose stop mark ends at `tEnd` at these times, in order (R244), no
two consecutive ones more than `g` apart, the first less than `g` after `t0`, and stops at the first one at or after `tEnd`
(R245). So the first sample at or after each edge is at most `g - 1` late. -/
abbrev FrameSampled (g t0 tEnd : Nat) (before : List Timestamp) (last : Timestamp) : Prop :=
  (before ++ [last]).Pairwise (fun t u => t.toNat ≤ u.toNat) ∧ gapsWithin g (before ++ [last]) = true ∧
  ((before ++ [last]).head?.all fun t => decide (t.toNat < t0 + g)) = true ∧
  (before.all fun t => decide (t.toNat < tEnd)) = true ∧ tEnd ≤ last.toNat

/-- Each of these marks, from a rising edge to a falling edge, is sampled while it is high. -/
abbrev MarksSeen (marks : List (Nat × Nat)) (ts : List Timestamp) : Prop :=
  (marks.all fun m => ts.any fun t => decide (m.1 ≤ t.toNat) && decide (t.toNat < m.2)) = true

/-- R245, R247: the next request is not a SAMPLE that the host must not issue, at `Finished` or after an error. -/
def hostMayIssueNext (s : State) : Bool :=
  match s.requests with
  | [] => true
  | r :: _ => !isSample r || (s.regs.stage != 7 && !s.errSeen)

/-- R250, success: the latest request returned `Ok` and `stage` is `Finished`. -/
def succeeded (s : State) : Bool := s.response == some .ok && s.regs.stage == 7 && !s.errSeen

/-- R250, failure: the session ended by an error (the ghost bit of R37). -/
def failed (s : State) : Bool := s.errSeen

end Sys2Proof.Safety
end

