-- ==== Sys2Proof/WellFormed.lean ====
section
/-! DEFINITION. When a request is the row it claims to be: each SAMPLE row stands only under the stage values that the
opcode table's stage selector names (R75, R77). INIT stands under every stage value (R100). -/

namespace Sys2Proof

/-- The stage values under which a request is the row its constructor names (the table's stage selectors, R75). -/
def Instr.wf (stage : StageCode) : Instr → Bool
  | .init => true
  | .sampleIdle _ => stage.toNat == 0
  | .sampleStartSymbol _ => stage.toNat == 1
  | .sampleAddr _ => stage.toNat == 2
  | .sampleAddrInv _ => stage.toNat == 3
  | .sampleCmd _ => stage.toNat == 4
  | .sampleCmdInv _ => stage.toNat == 5
  | .sampleStopSymbol _ => stage.toNat == 6
  | .sampleFinished _ => stage.toNat == 7
  | .sampleInvalidStage _ => decide (8 ≤ stage.toNat)

/-- The canonical SAMPLE form has all presence bits set (R74). -/
def SampleArgs.allPresent (q : SampleArgs) : Bool :=
  q.statePresent && q.protoPresent && q.platPresent

end Sys2Proof
end

