-- ==== Sys2Proof/Certificates/Slice0/Obligations.lean ====
section
/-! DEFINITION. The statements for the provers. `Claims` holds the few words they share. -/

namespace Sys2Proof.Claims

open Sys2Proof.Machine

/-- A SAMPLE that no null check and no admission check of R101 stops. -/
abbrev Ready (q : SampleArgs) (s : State) : Prop :=
  q.statePresent = true ∧ q.protoPresent = true ∧ q.platPresent = true ∧ s.admitted = true

/-- The state after a request that returns `Ok` with the DecoderState `d`: nothing else changes (R105). -/
abbrev okWith (d : DecoderState) (s : State) : State := { s with regs := d, response := some .ok }

/-- The state after a request that returns the error `k`: no register changes (R105, R213). -/
abbrev failedWith (k : ErrorKind) (s : State) : State :=
  { s with errSeen := true, response := some (.error k) }

/-- The four field rows, with their field, their stage value and their operands. -/
abbrev fieldRow? : Instr → Option (Field × StageCode × SampleArgs)
  | .sampleAddr q => some (.addr, 2, q)
  | .sampleAddrInv q => some (.addrInv, 3, q)
  | .sampleCmd q => some (.cmd, 4, q)
  | .sampleCmdInv q => some (.cmdInv, 5, q)
  | .init => none
  | .sampleIdle _ => none
  | .sampleStartSymbol _ => none
  | .sampleStopSymbol _ => none
  | .sampleFinished _ => none
  | .sampleInvalidStage _ => none

/-- The two inverse rows, with their field, their stage value, their operands, and the primary field's value. -/
abbrev inverseRow? (d : DecoderState) : Instr → Option (Field × StageCode × SampleArgs × FieldWord)
  | .sampleAddrInv q => some (.addrInv, 3, q, d.addr)
  | .sampleCmdInv q => some (.cmdInv, 5, q, d.cmd)
  | .sampleAddr _ => none
  | .sampleCmd _ => none
  | .init => none
  | .sampleIdle _ => none
  | .sampleStartSymbol _ => none
  | .sampleStopSymbol _ => none
  | .sampleFinished _ => none
  | .sampleInvalidStage _ => none

/-- What the data classifier says of a SAMPLE (R130, R133). -/
abbrev dataOutcome (q : SampleArgs) (s : State) : Classified Bool :=
  classifyData s.params.bitAssign s.protocol s.platform (q.timestamp - s.regs.symbolStart).toNat q.sample

/-- `v'` of R161, in `W_FIELD` bits. -/
abbrev withBit (a : Params) (v : FieldWord) (b : Bool) (idx : Count) : FieldWord :=
  (v.setWidth a.widths.wField ||| ((BitVec.ofBool b).setWidth a.widths.wField <<< idx.toNat)).setWidth 255

/-- The state after a data bit that does not end its field, given its register writes but for `bit_idx`: `bit_idx` goes up
by one. The value after the largest of `W_CNT` bits is a free value, of which this says only that it fits them (log entry 8). -/
abbrev AdvancesTo (out : Host.Outcome State Fault Refusal) (d : DecoderState) (s : State) : Prop :=
  ∃ (n : Count) (draws : Nat), n.toNat < 2 ^ s.params.widths.wCnt ∧
    (s.regs.bitIdx.toNat + 1 < 2 ^ s.params.widths.wCnt → n = s.regs.bitIdx + 1 ∧ draws = s.draws) ∧
    out = .next { s with regs := { d with bitIdx := n }, draws := draws, response := some .ok }

/-- `Admit(C)` in the spec's own arithmetic (R107, checks A1 to A9). -/
abbrev NineChecks (a : Params) (p : ProtocolConfig) (pl : PlatformConfig) : Prop :=
  let T := pl.tolerance.toNat
  let S := min p.zeroPeriod.toNat p.onePeriod.toNat
  let L := max p.zeroPeriod.toNat p.onePeriod.toNat
  (1 ≤ p.addressBits.toNat ∧ p.addressBits.toNat ≤ a.widths.wField) ∧
  (1 ≤ p.commandBits.toNat ∧ p.commandBits.toNat ≤ a.widths.wField) ∧
  (0 < p.startPulse.toNat ∧ 0 < p.startPeriod.toNat ∧ 0 < p.stopPulse.toNat ∧ 0 < p.dataBitPulse.toNat ∧
    0 < p.zeroPeriod.toNat ∧ 0 < p.onePeriod.toNat) ∧
  p.zeroPeriod.toNat ≠ p.onePeriod.toNat ∧
  (T ≤ p.dataBitPulse.toNat ∧ T ≤ p.startPulse.toNat ∧ T ≤ p.stopPulse.toNat) ∧
  (p.dataBitPulse.toNat + T < S - T ∧ S + T < L - T) ∧
  p.startPulse.toNat + T < p.startPeriod.toNat - T ∧
  p.verifyFlags.toNat / 4 = 0 ∧
  (a.inverseSupport = .rejectConfig → p.verifyFlags.toNat % 4 = 0)

/-- Every value of a configuration fits the width of its field (R31, R33, D2). -/
abbrev FitsItsFields (w : Widths) (p : ProtocolConfig) (pl : PlatformConfig) : Prop :=
  (p.addressBits.toNat < 2 ^ w.wCnt ∧ p.commandBits.toNat < 2 ^ w.wCnt) ∧
  (p.startPulse.toNat < 2 ^ w.wDur ∧ p.startPeriod.toNat < 2 ^ w.wDur ∧ p.stopPulse.toNat < 2 ^ w.wDur ∧
    p.dataBitPulse.toNat < 2 ^ w.wDur ∧ p.zeroPeriod.toNat < 2 ^ w.wDur ∧ p.onePeriod.toNat < 2 ^ w.wDur ∧
    pl.tolerance.toNat < 2 ^ w.wDur)

/-- The value of data bits received LSB-first: `Σ bits[i]·2^i` (R10, R175). -/
def lsbValue : List Bool → Nat
  | [] => 0
  | b :: bs => b.toNat + 2 * lsbValue bs

/-- A session that has just begun: the DecoderState as INIT leaves it, with the frame `bits` starting at `t0` to be
issued under one configuration (R80, R100, R246). -/
abbrev FrameAhead (p : ProtocolConfig) (pl : PlatformConfig) (t0 : Timestamp) (bits : List Bool) (s : State) : Prop :=
  s.regs = DecoderState.zero ∧ s.errSeen = false ∧ s.requests = presented p pl (pseudoFrame p t0 bits)

/-- The premises of R175 on the parameters and the configuration. -/
abbrev FrameRules (a : Params) (p : ProtocolConfig) (pl : PlatformConfig) : Prop :=
  admits a p pl = true ∧
  (a.bitAssign = .byPeriod ∨ p.zeroPeriod.toNat < p.onePeriod.toNat) ∧
  (a.postCmdSelect = .cmdFlag ∨ p.addrVerifyInverse = p.cmdVerifyInverse)

/-- The data bits of a frame, in the order sent: an inverse field follows its primary field where its flag is set (R175). -/
abbrev frameBits (p : ProtocolConfig) (addr invAddr cmd invCmd : List Bool) : List Bool :=
  addr ++ (if p.addrVerifyInverse then invAddr else []) ++ cmd ++ (if p.cmdVerifyInverse then invCmd else [])

/-- Every field has its configured number of bits. -/
abbrev FieldLengths (p : ProtocolConfig) (addr invAddr cmd invCmd : List Bool) : Prop :=
  addr.length = p.addressBits.toNat ∧ invAddr.length = p.addressBits.toNat ∧
  cmd.length = p.commandBits.toNat ∧ invCmd.length = p.commandBits.toNat

/-- Each inverse field that is sent is the complement of its primary field. -/
abbrev SentInversesMatch (p : ProtocolConfig) (addr invAddr cmd invCmd : List Bool) : Prop :=
  (p.addrVerifyInverse = true → invAddr = addr.map (!·)) ∧ (p.cmdVerifyInverse = true → invCmd = cmd.map (!·))

end Sys2Proof.Claims

open Sys2Proof Sys2Proof.Machine Sys2Proof.Safety Sys2Proof.Claims

/-! ## Reset and INIT -/

/-- R240: power-on reset gives the DecoderState and the ghost bit that INIT gives, all zero. -/
def Obligations.PowerOnResetEqualsInit : Prop :=
  State.reset.regs = { stage := 0, bitIdx := 0, symbolStart := 0, addr := 0, cmd := 0, invAddr := 0, invCmd := 0 } ∧
  State.reset.errSeen = false ∧
  ∀ s t : State, exec .init s = .next t → t.regs = State.reset.regs ∧ t.errSeen = State.reset.errSeen

/-- R100: INIT completes in every state, zeroes the seven registers and the ghost bit, returns `Ok`, and changes nothing
else; any word with `op` = 1 spells it. -/
def Obligations.InitZeroesEveryRegister : Prop :=
  (∀ s : State, exec .init s = .next { s with
    regs := { stage := 0, bitIdx := 0, symbolStart := 0, addr := 0, cmd := 0, invAddr := 0, invCmd := 0 },
    errSeen := false, response := some .ok }) ∧
  (∀ (stage : StageCode) (w : RequestWord), w.toNat / 2 ^ 68 = 1 → decode stage w = .ok .init)

/-! ## Encoding -/

/-- R73: bits [67:0] of an INIT word are ignored, and the canonical word has them all 0. -/
def Obligations.InitWordIgnoresLowBits : Prop :=
  (∀ (stage : StageCode) (low : Nat), low < 2 ^ 68 → decode stage (BitVec.ofNat 72 (2 ^ 68 + low)) = .ok .init) ∧
  encode .init = 0x100000000000000000#72

/-- R71: `op` 0 is SAMPLE, 1 is INIT, and 2 to 15 are reserved: the decoder rejects them by name and the step refuses. -/
def Obligations.OpFieldSelectsTheOperation : Prop :=
  ∀ (stage : StageCode) (w : RequestWord),
    (w.toNat / 2 ^ 68 = 0 → ∃ i q, decode stage w = .ok i ∧ i.args? = some q) ∧
    (w.toNat / 2 ^ 68 = 1 → decode stage w = .ok .init) ∧
    (2 ≤ w.toNat / 2 ^ 68 → decode stage w = .error (.reservedOp (BitVec.ofNat 4 (w.toNat / 2 ^ 68))) ∧
      ∀ (s : State) (r : Request) (rest : List Request), s.requests = r :: rest → r.word = w →
        step s = .refused (.reservedOp (BitVec.ofNat 4 (w.toNat / 2 ^ 68))))

/-- R72: the operands of a SAMPLE word, as numbers. -/
def Obligations.SampleOperandsComeFromTheirBits : Prop :=
  ∀ (stage : StageCode) (w : RequestWord) (i : Instr) (q : SampleArgs),
    decode stage w = .ok i → i.args? = some q →
    q.timestamp.toNat = w.toNat % 2 ^ 64 ∧
    (q.sample = .high ↔ w.toNat / 2 ^ 64 % 2 = 1) ∧
    (q.statePresent = true ↔ w.toNat / 2 ^ 65 % 2 = 1) ∧
    (q.protoPresent = true ↔ w.toNat / 2 ^ 66 % 2 = 1) ∧
    (q.platPresent = true ↔ w.toNat / 2 ^ 67 % 2 = 1)

/-- R77: `op` selects INIT or SAMPLE or refuses; for SAMPLE the value of `stage` selects the row. -/
def Obligations.StageRegisterSelectsTheRow : Prop :=
  ∀ (stage : StageCode) (w : RequestWord),
    (w.toNat / 2 ^ 68 = 1 → decode stage w = .ok .init) ∧
    (2 ≤ w.toNat / 2 ^ 68 → ∃ op, decode stage w = .error (.reservedOp op)) ∧
    (w.toNat / 2 ^ 68 = 0 → ∃ q : SampleArgs,
      (stage.toNat = 0 → decode stage w = .ok (.sampleIdle q)) ∧
      (stage.toNat = 1 → decode stage w = .ok (.sampleStartSymbol q)) ∧
      (stage.toNat = 2 → decode stage w = .ok (.sampleAddr q)) ∧
      (stage.toNat = 3 → decode stage w = .ok (.sampleAddrInv q)) ∧
      (stage.toNat = 4 → decode stage w = .ok (.sampleCmd q)) ∧
      (stage.toNat = 5 → decode stage w = .ok (.sampleCmdInv q)) ∧
      (stage.toNat = 6 → decode stage w = .ok (.sampleStopSymbol q)) ∧
      (stage.toNat = 7 → decode stage w = .ok (.sampleFinished q)) ∧
      (8 ≤ stage.toNat → decode stage w = .ok (.sampleInvalidStage q)))

/-- Decoding the word of a request under a stage that selects it gives the request back, with every operand at every
value. -/
def Obligations.DecodeOfEncodeIsTheRequest : Prop :=
  ∀ (stage : StageCode) (i : Instr), i.wf stage = true → decode stage (encode i) = .ok i

/-- What the decoder accepts is a row the stage selects; a SAMPLE word is the word of its operands, with no bit dropped, and
an INIT word encodes canonically. -/
def Obligations.EncodeOfDecodeIsTheWord : Prop :=
  ∀ (stage : StageCode) (w : RequestWord) (i : Instr), decode stage w = .ok i →
    i.wf stage = true ∧ (i.args?.isSome = true → encode i = w) ∧ (i = .init → encode i = 0x100000000000000000#72)

/-- Words written out from R70 and R79 (bits 71 to 68 `op`, 67 `plat`, 66 `proto`, 65 `state`, 64 `sample`). -/
def Obligations.WrittenOutWordsDecode : Prop :=
  decode 0 0x100000000000000000 = .ok .init ∧
  decode 1 0x0F00000000000034BC = .ok (.sampleStartSymbol ⟨.high, 13500, true, true, true⟩) ∧
  decode 2 0x0E00000000000036EE = .ok (.sampleAddr ⟨.low, 14062, true, true, true⟩) ∧
  decode 6 0x0D0000000000000005 = .ok (.sampleStopSymbol ⟨.high, 5, false, true, true⟩) ∧
  decode 0 0x0B0000000000000005 = .ok (.sampleIdle ⟨.high, 5, true, false, true⟩) ∧
  decode 9 0x070000000000000005 = .ok (.sampleInvalidStage ⟨.high, 5, true, true, false⟩) ∧
  decode 0 0x200000000000000000 = .error (.reservedOp 2)

/-- R79: a SAMPLE word with all presence bits set and level `l` at time `t` is `(0x7 << 65) | (l << 64) | t`, as a number. -/
def Obligations.CanonicalSampleWordIsItsNumber : Prop :=
  ∀ (l : Level) (t : Timestamp),
    (sampleWord l t).toNat = 7 * 2 ^ 65 + (if l = .high then 2 ^ 64 else 0) + t.toNat

/-! ## The step -/

/-- A step performs the request the decoder reads from the next word (R77), with the configuration presented beside it. The
host's queue is the model's choice (log entry 3, over the order of R57), and so is that the configuration port takes the
values beside every request, INIT and SAMPLEs with an absent reference among them (log entry 18; R34 speaks of SAMPLE
alone). -/
def Obligations.StepPerformsTheDecodedRequest : Prop :=
  ∀ (s : State) (r : Request) (rest : List Request) (i : Instr),
    s.requests = r :: rest → decode s.regs.stage r.word = .ok i →
    step s = exec i { s with requests := rest, protocol := r.protocol, platform := r.platform }

/-- With no request to perform the block holds its state (R223; that a step then changes nothing is the model's choice, log
entry 4). -/
def Obligations.BlockHoldsItsStateBetweenRequests : Prop :=
  ∀ s : State, s.requests = [] → step s = .next s

/-- R7: a request returns `Ok`, or an error with the DecoderState unchanged, or is refused, and it is refused only for a
reserved `op` or for a SAMPLE whose configuration fails admission. -/
def Obligations.EveryRequestHasOneOfThreeOutcomes : Prop :=
  ∀ (s : State) (r : Request) (rest : List Request), s.requests = r :: rest →
    (∃ t, step s = .next t ∧ t.response = some .ok) ∨
    (∃ t k, step s = .next t ∧ t.response = some (.error k) ∧ t.regs = s.regs) ∨
    (2 ≤ r.word.toNat / 2 ^ 68 ∧ ∃ op, step s = .refused (.reservedOp op)) ∨
    (r.word.toNat / 2 ^ 68 = 0 ∧ r.word.toNat / 2 ^ 65 % 8 = 7 ∧
      ¬ (FitsItsFields s.params.widths r.protocol r.platform ∧ NineChecks s.params r.protocol r.platform) ∧
      step s = .refused .configNotAdmitted)

/-! ## The dispatcher -/

/-- R102, R103, R104: the three null checks come first, in this order, for every SAMPLE row, whatever the stage and the
configuration. -/
def Obligations.NullChecksComeFirst : Prop :=
  ∀ (i : Instr) (q : SampleArgs) (s : State), i.args? = some q →
    (q.statePresent = false → exec i s = .next (failedWith .nullState s)) ∧
    (q.statePresent = true → q.protoPresent = false → exec i s = .next (failedWith .nullProtocol s)) ∧
    (q.statePresent = true → q.protoPresent = true → q.platPresent = false →
      exec i s = .next (failedWith .nullPlatform s))

/-- R107: a SAMPLE that passes the null checks is refused for its configuration exactly when one of A1 to A9 fails, or when a
value is wider than the field of R31 or R33 that carries it (D2: "configs beyond the widths are not admitted"). -/
def Obligations.AdmissionIsTheNineChecks : Prop :=
  ∀ (i : Instr) (q : SampleArgs) (s : State), i.args? = some q → q.allPresent = true →
    (exec i s = .refused .configNotAdmitted ↔
      ¬ (FitsItsFields s.params.widths s.protocol s.platform ∧ NineChecks s.params s.protocol s.platform))

/-- R108: an illegal stage value fails with `InvalidStage` and nothing is written; stage value 7 does not, under the default
policy. -/
def Obligations.IllegalStageFails : Prop :=
  ∀ (q : SampleArgs) (s : State), Ready q s →
    (7 < s.regs.stage.toNat → exec (.sampleInvalidStage q) s = .next (failedWith .invalidStage s)) ∧
    (s.regs.stage.toNat = 7 → s.params.finishedPolicy = .absorb →
      exec (.sampleFinished q) s = .next (okWith s.regs s))

/-- R109: a SAMPLE at `Finished` changes no register under either policy; the policy decides the result. -/
def Obligations.FinishedIsDecidedByItsPolicy : Prop :=
  ∀ (q : SampleArgs) (s : State), Ready q s → s.regs.stage = 7 →
    (s.params.finishedPolicy = .absorb → exec (.sampleFinished q) s = .next (okWith s.regs s)) ∧
    (s.params.finishedPolicy = .invalidStage → exec (.sampleFinished q) s = .next (failedWith .invalidStage s))

/-! ## The classifiers and the symbol stages -/

/-- R133: the seven bands of the data classifier, with the bits of R132. -/
def Obligations.DataClassifierHasSevenBands : Prop :=
  ∀ (a : BitAssign) (p : ProtocolConfig) (pl : PlatformConfig) (e : Nat) (l : Level),
    let T := pl.tolerance.toNat
    let Pd := p.dataBitPulse.toNat
    let S := min p.zeroPeriod.toNat p.onePeriod.toNat
    let L := max p.zeroPeriod.toNat p.onePeriod.toNat
    let sbit := decide (a = .byPeriod ∧ ¬ p.zeroPeriod.toNat < p.onePeriod.toNat)
    let out := classifyData a p pl e l
    (e < Pd - T → out = if l = .low then .errs .pulseTooShort else .continues) ∧
    (Pd - T ≤ e → e ≤ Pd + T → out = .continues) ∧
    (Pd - T ≤ e → Pd + T < e → e < S - T → out = if l = .high then .errs .unexpectedLineHigh else .continues) ∧
    (Pd - T ≤ e → Pd + T < e → S - T ≤ e → e ≤ S + T → out = if l = .high then .completes sbit else .continues) ∧
    (Pd - T ≤ e → Pd + T < e → S - T ≤ e → S + T < e → e < L - T →
      out = if l = .high then .errs .unexpectedLineHigh else .continues) ∧
    (Pd - T ≤ e → Pd + T < e → S - T ≤ e → S + T < e → L - T ≤ e → e ≤ L + T →
      out = if l = .high then .completes (!sbit) else .continues) ∧
    (Pd - T ≤ e → Pd + T < e → S - T ≤ e → S + T < e → L - T ≤ e → L + T < e → out = .errs .symbolPeriodTooLong)

/-- R160: at `Idle` a low sample writes nothing and a high sample starts a frame, at any timestamp. -/
def Obligations.IdleStartsAFrameOnTheFirstHigh : Prop :=
  ∀ (q : SampleArgs) (s : State), Ready q s → s.regs.stage = 0 →
    (q.sample = .low → exec (.sampleIdle q) s = .next (okWith s.regs s)) ∧
    (q.sample = .high →
      exec (.sampleIdle q) s = .next (okWith { s.regs with symbolStart := q.timestamp, stage := 1 } s))

/-- R166 with R137: the start symbol, band by band, with everything each outcome writes. -/
def Obligations.StartSymbolFollowsItsBands : Prop :=
  ∀ (q : SampleArgs) (s : State), Ready q s → s.regs.stage = 1 →
    let e := (q.timestamp - s.regs.symbolStart).toNat
    let T := s.platform.tolerance.toNat
    let Ps := s.protocol.startPulse.toNat
    let Pp := s.protocol.startPeriod.toNat
    let out := exec (.sampleStartSymbol q) s
    (e + T < Ps → q.sample = .low → out = .next (failedWith .pulseTooShort s)) ∧
    (e + T < Ps → q.sample = .high → out = .next (okWith s.regs s)) ∧
    (Ps ≤ e + T → e ≤ Ps + T → out = .next (okWith s.regs s)) ∧
    (Ps + T < e → e + T < Pp → q.sample = .high → out = .next (failedWith .unexpectedLineHigh s)) ∧
    (Ps + T < e → e + T < Pp → q.sample = .low → out = .next (okWith s.regs s)) ∧
    (Pp ≤ e + T → e ≤ Pp + T → q.sample = .high →
      out = .next (okWith { s.regs with symbolStart := q.timestamp, stage := 2 } s)) ∧
    (Pp ≤ e + T → e ≤ Pp + T → q.sample = .low → out = .next (okWith s.regs s)) ∧
    (Pp + T < e → out = .next (failedWith .symbolPeriodTooLong s))

/-- R172 with R140: the stop symbol, band by band, under both values of `STOP_LATE_LOW`; it writes only `stage`. -/
def Obligations.StopSymbolFollowsItsBand : Prop :=
  ∀ (q : SampleArgs) (s : State), Ready q s → s.regs.stage = 6 →
    let e := (q.timestamp - s.regs.symbolStart).toNat
    let T := s.platform.tolerance.toNat
    let Pst := s.protocol.stopPulse.toNat
    let out := exec (.sampleStopSymbol q) s
    (e + T < Pst → q.sample = .low → out = .next (failedWith .pulseTooShort s)) ∧
    (e ≤ Pst + T → q.sample = .high → out = .next (okWith s.regs s)) ∧
    (Pst ≤ e + T → e ≤ Pst + T → q.sample = .low → out = .next (okWith { s.regs with stage := 7 } s)) ∧
    (Pst + T < e → q.sample = .high → out = .next (failedWith .unexpectedLineHigh s)) ∧
    (Pst + T < e → q.sample = .low → s.params.stopLateLow = .symbolPeriodTooLong →
      out = .next (failedWith .symbolPeriodTooLong s)) ∧
    (Pst + T < e → q.sample = .low → s.params.stopLateLow = .finish →
      out = .next (okWith { s.regs with stage := 7 } s))

/-! ## The field stages -/

/-- R167 with R163: the Addr row, by what the data classifier says, with everything each outcome writes. -/
def Obligations.AddrStageAccumulatesTheAddress : Prop :=
  ∀ (q : SampleArgs) (s : State), Ready q s → s.regs.stage = 2 →
    let out := exec (.sampleAddr q) s
    let ends := s.regs.bitIdx.toNat + 1 = s.protocol.addressBits.toNat
    let wrote := fun b => { s.regs with addr := withBit s.params s.regs.addr b s.regs.bitIdx, symbolStart := q.timestamp }
    (∀ k, dataOutcome q s = .errs k → out = .next (failedWith k s)) ∧
    (dataOutcome q s = .continues → out = .next (okWith s.regs s)) ∧
    (∀ b, dataOutcome q s = .completes b → ends →
      out = .next (okWith { wrote b with bitIdx := 0,
                                         stage := if s.protocol.verifyFlags.getLsbD 0 then 3 else 4 } s)) ∧
    (∀ b, dataOutcome q s = .completes b → ¬ ends → AdvancesTo out (wrote b) s)

/-- R168 with R164: the AddrInv row; at the field end the complete value must be the complement of `addr`. -/
def Obligations.AddrInvStageChecksTheAddress : Prop :=
  ∀ (q : SampleArgs) (s : State), Ready q s → s.regs.stage = 3 →
    let out := exec (.sampleAddrInv q) s
    let ends := s.regs.bitIdx.toNat + 1 = s.protocol.addressBits.toNat
    let v := fun b => withBit s.params s.regs.invAddr b s.regs.bitIdx
    let wrote := fun b => { s.regs with invAddr := v b, symbolStart := q.timestamp }
    let complement := ~~~s.regs.addr &&& BitVec.ofNat 255 (2 ^ s.protocol.addressBits.toNat - 1)
    (∀ k, dataOutcome q s = .errs k → out = .next (failedWith k s)) ∧
    (dataOutcome q s = .continues → out = .next (okWith s.regs s)) ∧
    (∀ b, dataOutcome q s = .completes b → ends → v b ≠ complement → out = .next (failedWith .inverseMismatch s)) ∧
    (∀ b, dataOutcome q s = .completes b → ends → v b = complement →
      out = .next (okWith { wrote b with bitIdx := 0, stage := 4 } s)) ∧
    (∀ b, dataOutcome q s = .completes b → ¬ ends → AdvancesTo out (wrote b) s)

/-- R169 with R170: the Cmd row; the flag that `POST_CMD_SELECT` names selects the stage after it. -/
def Obligations.CmdStageAccumulatesTheCommand : Prop :=
  ∀ (q : SampleArgs) (s : State), Ready q s → s.regs.stage = 4 →
    let out := exec (.sampleCmd q) s
    let ends := s.regs.bitIdx.toNat + 1 = s.protocol.commandBits.toNat
    let wrote := fun b => { s.regs with cmd := withBit s.params s.regs.cmd b s.regs.bitIdx, symbolStart := q.timestamp }
    let flag := match s.params.postCmdSelect with
      | .cmdFlag => s.protocol.verifyFlags.getLsbD 1
      | .addrFlag => s.protocol.verifyFlags.getLsbD 0
    (∀ k, dataOutcome q s = .errs k → out = .next (failedWith k s)) ∧
    (dataOutcome q s = .continues → out = .next (okWith s.regs s)) ∧
    (∀ b, dataOutcome q s = .completes b → ends →
      out = .next (okWith { wrote b with bitIdx := 0, stage := if flag then 5 else 6 } s)) ∧
    (∀ b, dataOutcome q s = .completes b → ¬ ends → AdvancesTo out (wrote b) s)

/-- R171: the CmdInv row; at the field end the complete value must be the complement of `cmd`. -/
def Obligations.CmdInvStageChecksTheCommand : Prop :=
  ∀ (q : SampleArgs) (s : State), Ready q s → s.regs.stage = 5 →
    let out := exec (.sampleCmdInv q) s
    let ends := s.regs.bitIdx.toNat + 1 = s.protocol.commandBits.toNat
    let v := fun b => withBit s.params s.regs.invCmd b s.regs.bitIdx
    let wrote := fun b => { s.regs with invCmd := v b, symbolStart := q.timestamp }
    let complement := ~~~s.regs.cmd &&& BitVec.ofNat 255 (2 ^ s.protocol.commandBits.toNat - 1)
    (∀ k, dataOutcome q s = .errs k → out = .next (failedWith k s)) ∧
    (dataOutcome q s = .continues → out = .next (okWith s.regs s)) ∧
    (∀ b, dataOutcome q s = .completes b → ends → v b ≠ complement → out = .next (failedWith .inverseMismatch s)) ∧
    (∀ b, dataOutcome q s = .completes b → ends → v b = complement →
      out = .next (okWith { wrote b with bitIdx := 0, stage := 6 } s)) ∧
    (∀ b, dataOutcome q s = .completes b → ¬ ends → AdvancesTo out (wrote b) s)

/-- R165: the inverse check is made once, at the end of the inverse field, on the complete value: the complement of the
primary field's low `w` bits as a number. A mismatch writes no register; an incomplete field is not checked. -/
def Obligations.InverseIsCheckedOnceAtTheFieldEnd : Prop :=
  ∀ (i : Instr) (f : Field) (c : StageCode) (q : SampleArgs) (p : FieldWord) (s : State) (b : Bool),
    inverseRow? s.regs i = some (f, c, q, p) → Ready q s → s.regs.stage = c → dataOutcome q s = .completes b →
    let w := (s.protocol.width f).toNat
    let v := (withBit s.params (s.regs.field f) b s.regs.bitIdx).toNat
    (s.regs.bitIdx.toNat + 1 = w → v ≠ 2 ^ w - 1 - p.toNat % 2 ^ w →
      exec i s = .next (failedWith .inverseMismatch s)) ∧
    (s.regs.bitIdx.toNat + 1 = w → v = 2 ^ w - 1 - p.toNat % 2 ^ w →
      ∃ t, exec i s = .next t ∧ t.response = some .ok) ∧
    (s.regs.bitIdx.toNat + 1 ≠ w → ∃ t, exec i s = .next t ∧ t.response = some .ok)

/-- R161's remark: in a state that meets the invariants of R39, a data bit accepted in a field stage adds `b·2^bit_idx` to its
field register. -/
def Obligations.AcceptedBitAddsItsPowerOfTwo : Prop :=
  ∀ (i : Instr) (f : Field) (c : StageCode) (q : SampleArgs) (s t : State) (b : Bool),
    fieldRow? i = some (f, c, q) → Ready q s → s.regs.stage = c → Reachable s.params s.protocol s.regs →
    dataOutcome q s = .completes b → exec i s = .next t → t.response = some .ok →
    (t.regs.field f).toNat = (s.regs.field f).toNat + b.toNat * 2 ^ s.regs.bitIdx.toNat

/-! ## Frames and whole-machine rules -/

/-- R213: whatever SAMPLE fails, the error changes nothing but the response and the ghost bit. -/
def Obligations.ErrorsArePrecise : Prop :=
  ∀ (i : Instr) (s t : State) (k : ErrorKind),
    exec i s = .next t → t.response = some (.error k) → i.args?.isSome = true ∧ t = failedWith k s

/-- R37: the ghost bit is cleared by INIT, set by every error and changed by nothing else. -/
def Obligations.ErrSeenIsClearedOnlyByInit : Prop :=
  ∀ (i : Instr) (s t : State), exec i s = .next t →
    (i = .init → t.errSeen = false) ∧
    (∀ k, t.response = some (.error k) → t.errSeen = true) ∧
    (i ≠ .init → t.response = some .ok → t.errSeen = s.errSeen)

/-- R215: a SAMPLE after an error is processed as it would have been without the error, and the ghost bit stays set. -/
def Obligations.SampleAfterAnErrorFollowsTheNormalRules : Prop :=
  ∀ (i : Instr) (q : SampleArgs) (s : State), i.args? = some q →
    (∀ t, exec i s = .next t → exec i { s with errSeen := true } = .next { t with errSeen := true }) ∧
    (∀ r, exec i s = .refused r → exec i { s with errSeen := true } = .refused r)

/-- R28: each register is written only by the requests its row of the table names. -/
def Obligations.EachRegisterHasItsWriters : Prop :=
  ∀ (i : Instr) (s t : State), exec i s = .next t → i ≠ .init →
    (∀ q, i = .sampleFinished q ∨ i = .sampleInvalidStage q → t.regs = s.regs) ∧
    ((∀ q, i ≠ .sampleAddr q) → t.regs.addr = s.regs.addr) ∧
    ((∀ q, i ≠ .sampleAddrInv q) → t.regs.invAddr = s.regs.invAddr) ∧
    ((∀ q, i ≠ .sampleCmd q) → t.regs.cmd = s.regs.cmd) ∧
    ((∀ q, i ≠ .sampleCmdInv q) → t.regs.invCmd = s.regs.invCmd) ∧
    (fieldRow? i = none → t.regs.bitIdx = s.regs.bitIdx ∧ t.draws = s.draws) ∧
    (∀ q, i = .sampleStopSymbol q → t.regs = { s.regs with stage := t.regs.stage }) ∧
    (t.regs.symbolStart = s.regs.symbolStart ∨ ∃ q, i.args? = some q ∧ q.sample = .high ∧
      t.regs.symbolStart = q.timestamp)

/-- R34, R8: no request writes the configuration or the parameters. That none writes the host's queue is a clause about the
model's own field (log entry 3, a design choice over the order of R57), not about R34 or R8. -/
def Obligations.ConfigurationIsReadOnly : Prop :=
  ∀ (i : Instr) (s t : State), exec i s = .next t →
    t.protocol = s.protocol ∧ t.platform = s.platform ∧ t.params = s.params ∧ t.requests = s.requests

/-- R29: a SAMPLE leaves `stage` or moves it one step along the chain; only INIT moves it back; `Finished` is terminal. -/
def Obligations.StageMovesOneStepAlongTheChain : Prop :=
  ∀ (i : Instr) (s t : State), exec i s = .next t →
    (i = .init → t.regs.stage.toNat = 0) ∧
    (i ≠ .init → t.regs.stage = s.regs.stage ∨
      (s.regs.stage.toNat, t.regs.stage.toNat) ∈
        [(0, 1), (1, 2), (2, 3), (2, 4), (3, 4), (4, 5), (4, 6), (5, 6), (6, 7)])

/-- R36: a request's result and register writes depend on the DecoderState, the configuration and the request alone (and on
the model's own counter of free values), not on the ghost bit, earlier responses or later requests. -/
def Obligations.NoHiddenStateIsRead : Prop :=
  ∀ (i : Instr) (s u : State),
    s.regs = u.regs → s.protocol = u.protocol → s.platform = u.platform → s.params = u.params → s.draws = u.draws →
    (∀ t, exec i s = .next t → ∃ v, exec i u = .next v ∧ v.regs = t.regs ∧ v.response = t.response) ∧
    (∀ r, exec i s = .refused r → exec i u = .refused r)

/-- R174: when the inverse stages are not supported, every configuration with a verify flag is refused, the inverse stages
are never entered, and `InverseMismatch` is never raised. -/
def Obligations.RejectedInversesAreUnreachable : Prop :=
  ∀ (i : Instr) (s : State), s.params.inverseSupport = .rejectConfig →
    (∀ q, i.args? = some q → q.allPresent = true → s.protocol.verifyFlags.toNat % 4 ≠ 0 →
      exec i s = .refused .configNotAdmitted) ∧
    (∀ t, s.regs.stage ≠ 3 → s.regs.stage ≠ 5 → exec i s = .next t →
      t.regs.stage ≠ 3 ∧ t.regs.stage ≠ 5 ∧ t.response ≠ some (.error .inverseMismatch))

/-- R130, R141: a timestamp before `symbol_start_usecs` by at most `2^64 - 2^(W_DUR+1)` (`2^64 - 2^33` by default) gives an elapsed
time of at least `2^(W_DUR+1)`, past every bound of R131: every stage that measures answers as past its last band, StopSymbol under both values of
`STOP_LATE_LOW`. (A timestamp further before it wraps to a small elapsed time, and can fall in a band.) -/
def Obligations.DecreasingTimestampIsPastEveryBand : Prop :=
  ∀ (q : SampleArgs) (s : State), Ready q s →
    q.timestamp.toNat < s.regs.symbolStart.toNat → s.regs.symbolStart.toNat ≤ q.timestamp.toNat + (2 ^ 64 - 2 ^ (s.params.widths.wDur + 1)) →
    (s.regs.stage = 1 → exec (.sampleStartSymbol q) s = .next (failedWith .symbolPeriodTooLong s)) ∧
    (s.regs.stage = 2 → exec (.sampleAddr q) s = .next (failedWith .symbolPeriodTooLong s)) ∧
    (s.regs.stage = 3 → exec (.sampleAddrInv q) s = .next (failedWith .symbolPeriodTooLong s)) ∧
    (s.regs.stage = 4 → exec (.sampleCmd q) s = .next (failedWith .symbolPeriodTooLong s)) ∧
    (s.regs.stage = 5 → exec (.sampleCmdInv q) s = .next (failedWith .symbolPeriodTooLong s)) ∧
    (s.regs.stage = 6 → q.sample = .high →
      exec (.sampleStopSymbol q) s = .next (failedWith .unexpectedLineHigh s)) ∧
    (s.regs.stage = 6 → q.sample = .low → s.params.stopLateLow = .symbolPeriodTooLong →
      exec (.sampleStopSymbol q) s = .next (failedWith .symbolPeriodTooLong s)) ∧
    (s.regs.stage = 6 → q.sample = .low → s.params.stopLateLow = .finish →
      exec (.sampleStopSymbol q) s = .next (okWith { s.regs with stage := 7 } s))

/-- R132, R170: the two values of `BIT_ASSIGN` agree when `zero_period_usecs < one_period_usecs`, and the two values of
`POST_CMD_SELECT` agree when the verify flags are equal: every request has the same outcome. -/
def Obligations.ParametersAgreeOnCanonicalConfigurations : Prop :=
  ∀ (i : Instr) (s t : State), exec i s = .next t →
    (s.protocol.zeroPeriod.toNat < s.protocol.onePeriod.toNat → ∀ a,
      exec i { s with params := { s.params with bitAssign := a } } =
        .next { t with params := { t.params with bitAssign := a } }) ∧
    (s.protocol.addrVerifyInverse = s.protocol.cmdVerifyInverse → ∀ a,
      exec i { s with params := { s.params with postCmdSelect := a } } =
        .next { t with params := { t.params with postCmdSelect := a } })

/-- The heart of R249, for each kind of symbol: an edge seen at most `T` late, in a symbol whose start was seen at most `T` late,
still completes the symbol: the start symbol and a data symbol, with the bit that was sent, at the rising edge that ends
them, the stop symbol at its falling edge. (SampledLineFinishesWithItsFields is the whole frame.) -/
def Obligations.LateEdgesWithinToleranceStillDecode : Prop :=
  ∀ (a : Params) (p : ProtocolConfig) (pl : PlatformConfig) (d : DecoderState) (u : Timestamp) (d0 d1 : Nat) (b : Bool),
    admits a p pl = true → (a.bitAssign = .byPeriod ∨ p.zeroPeriod.toNat < p.onePeriod.toNat) →
    d0 ≤ pl.tolerance.toNat → d1 ≤ pl.tolerance.toNat → d.symbolStart = u + BitVec.ofNat 64 d0 →
    classifyStart p pl (elapsed (u + p.startPeriod.setWidth 64 + BitVec.ofNat 64 d1) d) .high = .completes () ∧
    classifyData a.bitAssign p pl
      (elapsed (u + (if b then p.onePeriod else p.zeroPeriod).setWidth 64 + BitVec.ofNat 64 d1) d) .high = .completes b ∧
    classifyStop a.stopLateLow p pl (elapsed (u + p.stopPulse.setWidth 64 + BitVec.ofNat 64 d1) d) .low = .completes ()

/-- R76: every request that is not refused answers with a result, whose code is 0 to 8 in the order of the table. -/
def Obligations.EveryResponseHasItsCode : Prop :=
  (∀ (i : Instr) (s t : State), exec i s = .next t →
    ∃ r, t.response = some r ∧ t.responseCode = some r.code ∧ r.code.toNat ≤ 8) ∧
  ([Result.ok, .error .nullState, .error .nullProtocol, .error .nullPlatform, .error .invalidStage,
    .error .pulseTooShort, .error .unexpectedLineHigh, .error .symbolPeriodTooLong,
    .error .inverseMismatch].map fun r => r.code.toNat) = [0, 1, 2, 3, 4, 5, 6, 7, 8] ∧
  ∀ r u : Result, r.code = u.code → r = u

/-- R38, R20: the host reads each DecoderState register whole, under its number, at the width its parameter gives it. -/
def Obligations.HostReadsWholeRegisters : Prop :=
  ∀ s : State, RegistersFit s →
    ([Reg.s0, .s1, .s2, .s3, .s4, .s5, .s6].map (Reg.width s.params) =
      [s.params.widths.wStage, s.params.widths.wCnt, 64, s.params.widths.wField, s.params.widths.wField,
       s.params.widths.wField, s.params.widths.wField]) ∧
    (hostRead s .s0).toNat = s.regs.stage.toNat ∧ (hostRead s .s1).toNat = s.regs.bitIdx.toNat ∧
    (hostRead s .s2).toNat = s.regs.symbolStart.toNat ∧ (hostRead s .s3).toNat = s.regs.addr.toNat ∧
    (hostRead s .s4).toNat = s.regs.cmd.toNat ∧ (hostRead s .s5).toNat = s.regs.invAddr.toNat ∧
    (hostRead s .s6).toNat = s.regs.invCmd.toNat

/-- A step of one instance changes no other instance, and steps of two instances commute. It rests on how `fleetStep` schedules
instances, the model's choice (log entry 16): it steps one at a time, a missing instance changes nothing, one refusal is the
fleet's. It is a property of `fleetStep`, true whatever a step does, and says in the model what R60 and R221 say of the
hardware. -/
def Obligations.InstancesDoNotInteract : Prop :=
  ∀ (j k : Nat) (f g : List State), j ≠ k →
    (fleetStep k f = .next g → g.length = f.length ∧ (∀ m, m ≠ k → g[m]? = f[m]?) ∧
      ∀ s, f[k]? = some s → ∃ t, step s = .next t ∧ g[k]? = some t) ∧
    (fleetStepTwo j k f = .next g → fleetStepTwo k j f = .next g)

/-! ## Invariants and frames -/

/-- R21: no step writes an illegal stage value. -/
def Obligations.EveryStepKeepsTheStageLegal : Prop :=
  ∀ s t : State, s.regs.stage.toNat ≤ 7 → step s = .next t → t.regs.stage.toNat ≤ 7

/-- R39, made inductive: under one configuration held constant every step keeps the invariants, in every state that meets
them. -/
def Obligations.EveryStepKeepsTheSessionInvariant : Prop :=
  ∀ (p : ProtocolConfig) (pl : PlatformConfig) (s t : State),
    SessionInv p pl s → step s = .next t → SessionInv p pl t

/-- The session invariant holds at power-on, whatever requests are to come under one configuration, and after INIT. -/
def Obligations.SessionInvariantHoldsFromInit : Prop :=
  ∀ (p : ProtocolConfig) (pl : PlatformConfig),
    (∀ (a : Params) (rs : List Request), (∀ r ∈ rs, r.protocol = p ∧ r.platform = pl) →
      SessionInv p pl { State.reset with params := a, requests := rs }) ∧
    (∀ s t : State, ConstantConfiguration p pl s → exec .init s = .next t → SessionInv p pl t)

/-- R39: every state reached from INIT under one configuration held constant meets its invariants. -/
def Obligations.ReachedStatesMeetTheInvariants : Prop :=
  ∀ (p : ProtocolConfig) (pl : PlatformConfig) (s t u : State) (n : Nat),
    ConstantConfiguration p pl s → exec .init s = .next t →
    Sys2Proof.core.run n t = .next u → Reachable s.params p u.regs

/-- R26, R27: an inverse field that the configuration does not ask for is never entered and stays 0, kept by every step. -/
def Obligations.EveryStepKeepsUnverifiedInversesZero : Prop :=
  ∀ (p : ProtocolConfig) (pl : PlatformConfig) (s t : State),
    UnverifiedInversesZero p pl s → step s = .next t → UnverifiedInversesZero p pl t

/-- R175: a frame sent from INIT, its inverse fields (where configured) the complements of their primary fields, returns `Ok`
at every request and ends at `Finished` with the fields LSB-first. The frame may start at any `t0`: for one whose timestamps
cross `2^64` this rests on the model's choice that pseudo-instructions add modulo `2^64` (log entry 12). -/
def Obligations.MatchingFrameFinishesWithItsFields : Prop :=
  ∀ (s : State) (p : ProtocolConfig) (pl : PlatformConfig) (t0 : Timestamp) (addr invAddr cmd invCmd : List Bool),
    FrameRules s.params p pl → FieldLengths p addr invAddr cmd invCmd →
    FrameAhead p pl t0 (frameBits p addr invAddr cmd invCmd) s → SentInversesMatch p addr invAddr cmd invCmd →
    (∀ n, 0 < n → n ≤ s.requests.length → ∃ u, Sys2Proof.core.run n s = .next u ∧ u.response = some .ok) ∧
    ∃ t, Sys2Proof.core.run s.requests.length s = .next t ∧ t.requests = [] ∧ t.errSeen = false ∧
      t.regs.stage = 7 ∧ t.regs.bitIdx = 0 ∧
      t.regs.addr.toNat = lsbValue addr ∧ t.regs.cmd.toNat = lsbValue cmd ∧
      t.regs.invAddr.toNat = (if p.addrVerifyInverse then lsbValue invAddr else 0) ∧
      t.regs.invCmd.toNat = (if p.cmdVerifyInverse then lsbValue invCmd else 0)

/-- R175: a frame one of whose inverse fields is not the complement of its primary field does not finish: some request fails
with `InverseMismatch`, and no request before it reached `Finished`. The frame may start at any `t0`: for one whose
timestamps cross `2^64` this rests on the model's choice that pseudo-instructions add modulo `2^64` (log entry 12). -/
def Obligations.MismatchingFrameFails : Prop :=
  ∀ (s : State) (p : ProtocolConfig) (pl : PlatformConfig) (t0 : Timestamp) (addr invAddr cmd invCmd : List Bool),
    FrameRules s.params p pl → FieldLengths p addr invAddr cmd invCmd →
    FrameAhead p pl t0 (frameBits p addr invAddr cmd invCmd) s → ¬ SentInversesMatch p addr invAddr cmd invCmd →
    ∃ n t, n ≤ s.requests.length ∧ Sys2Proof.core.run n s = .next t ∧
      t.response = some (.error .inverseMismatch) ∧
      ∀ m u, m ≤ n → Sys2Proof.core.run m s = .next u → u.regs.stage ≠ 7

/-- R249: a host that samples an ideal line at gaps of at most `g`, with `g - 1 <= T`, sees every request return `Ok` and the frame
finish with the transmitted fields, whatever the phase of its samples. That every mark is sampled while it is high is what
R249's reason takes for granted; it follows from R249's premises but at one corner (EveryMarkIsSeen), where R249 and R133
disagree (SamplingCanMissAMarkAtTheCorner, log entry 17). -/
def Obligations.SampledLineFinishesWithItsFields : Prop :=
  ∀ (s : State) (p : ProtocolConfig) (pl : PlatformConfig) (t0 g : Nat) (before : List Timestamp) (last : Timestamp)
    (addr invAddr cmd invCmd : List Bool),
    let bits := frameBits p addr invAddr cmd invCmd
    FrameRules s.params p pl → FieldLengths p addr invAddr cmd invCmd → SentInversesMatch p addr invAddr cmd invCmd →
    g ≤ pl.tolerance.toNat + 1 → FrameSampled g t0 (frameEnd p t0 bits) before last →
    MarksSeen (frameMarks p t0 bits) before →
    s.regs = DecoderState.zero → s.errSeen = false →
    s.requests = presented p pl (sampleLine p t0 bits (before ++ [last])) →
    (∀ n, 0 < n → n ≤ s.requests.length → ∃ u, Sys2Proof.core.run n s = .next u ∧ u.response = some .ok) ∧
    ∃ t, Sys2Proof.core.run s.requests.length s = .next t ∧ t.requests = [] ∧ t.errSeen = false ∧
      t.regs.stage = 7 ∧ t.regs.bitIdx = 0 ∧
      t.regs.addr.toNat = lsbValue addr ∧ t.regs.cmd.toNat = lsbValue cmd ∧
      t.regs.invAddr.toNat = (if p.addrVerifyInverse then lsbValue invAddr else 0) ∧
      t.regs.invCmd.toNat = (if p.cmdVerifyInverse then lsbValue invCmd else 0)

/-! ## The widths -/

/-- R20, R8: for every choice of the widths, no step leaves a DecoderState register with a bit at or above its width, in any
state where none has one. -/
def Obligations.EveryStepKeepsRegistersWithinTheirWidths : Prop :=
  ∀ s t : State, RegistersFit s → step s = .next t → RegistersFit t

/-- The registers fit their widths at power-on and after INIT, for every choice of the widths. `W_FIELD` is 1 to 255 and at
most `2^W_CNT - 1` (R9), `W_STAGE` holds the eight stage codes (R75), and by default `W_FIELD`, `W_DUR`, `W_CNT` and
`W_STAGE` are 32, 32, 8 and 8 (R8). -/
def Obligations.RegistersFitFromInit : Prop :=
  (∀ (a : Params) (rs : List Request), RegistersFit { State.reset with params := a, requests := rs }) ∧
  (∀ s t : State, exec .init s = .next t → RegistersFit t) ∧
  (∀ w : Widths, 1 ≤ w.wField ∧ w.wField ≤ 255 ∧ w.wField ≤ 2 ^ w.wCnt - 1 ∧ 7 < 2 ^ w.wStage) ∧
  (let w := State.reset.params.widths; (w.wField, w.wDur, w.wCnt, w.wStage) = (32, 32, 8, 8))

/-! ## The sampling condition of R249 -/

/-- R249's premises, `g - 1 <= T` with the samples of a frame at gaps of at most `g`, have every mark sampled while it is high,
unless `g - 1 = T` is the length of one of the marks (A5 admits that). -/
def Obligations.EveryMarkIsSeen : Prop :=
  ∀ (a : Params) (p : ProtocolConfig) (pl : PlatformConfig) (t0 g : Nat) (bits : List Bool) (before : List Timestamp)
    (last : Timestamp),
    admits a p pl = true → g ≤ pl.tolerance.toNat + 1 → FrameSampled g t0 (frameEnd p t0 bits) before last →
    ¬ (g = pl.tolerance.toNat + 1 ∧
      (pl.tolerance = p.startPulse ∨ pl.tolerance = p.dataBitPulse ∨ pl.tolerance = p.stopPulse)) →
    MarksSeen (frameMarks p t0 bits) before

/-- At that corner R249 and R133 disagree, and the machine follows R133: there is a frame sampled as R249 asks, with `g - 1 = T`
the length of its data marks, of which a request fails with `SymbolPeriodTooLong`, because one data mark falls between two
samples (log entry 17). -/
def Obligations.SamplingCanMissAMarkAtTheCorner : Prop :=
  ∃ (s : State) (p : ProtocolConfig) (pl : PlatformConfig) (t0 g : Nat) (before : List Timestamp) (last : Timestamp)
    (addr cmd : List Bool),
    let bits := frameBits p addr [] cmd []
    FrameRules s.params p pl ∧ p.verifyFlags = 0 ∧ addr.length = p.addressBits.toNat ∧
    cmd.length = p.commandBits.toNat ∧ g = pl.tolerance.toNat + 1 ∧ pl.tolerance = p.dataBitPulse ∧
    FrameSampled g t0 (frameEnd p t0 bits) before last ∧ ¬ MarksSeen (frameMarks p t0 bits) before ∧
    s.regs = DecoderState.zero ∧ s.errSeen = false ∧
    s.requests = presented p pl (sampleLine p t0 bits (before ++ [last])) ∧
    ∃ n t, n ≤ s.requests.length ∧ Sys2Proof.core.run n s = .next t ∧
      t.response = some (.error .symbolPeriodTooLong)
end

