-- ==== Sys2Proof/Laws/Operands.lean ====
section
/-! SUPPORT. What an admitted configuration guarantees, in arithmetic. -/

namespace Sys2Proof.Machine

@[simp] theorem width_addr (p : ProtocolConfig) : p.width .addr = p.addressBits := rfl
@[simp] theorem width_addrInv (p : ProtocolConfig) : p.width .addrInv = p.addressBits := rfl
@[simp] theorem width_cmd (p : ProtocolConfig) : p.width .cmd = p.commandBits := rfl
@[simp] theorem width_cmdInv (p : ProtocolConfig) : p.width .cmdInv = p.commandBits := rfl

/-- The shorter period is one of the two, and no longer than the other. -/
theorem shorter_toNat (p : ProtocolConfig) : p.shorter.toNat = min p.zeroPeriod.toNat p.onePeriod.toNat := by
  unfold ProtocolConfig.shorter; split <;> omega

/-- The longer period is one of the two, and no shorter than the other. -/
theorem longer_toNat (p : ProtocolConfig) : p.longer.toNat = max p.zeroPeriod.toNat p.onePeriod.toNat := by
  unfold ProtocolConfig.longer; split <;> omega

/-- The inequalities of A1, A2, A5, A6 and A7 that handlers rely on (R131). -/
structure Bounds (a : Params) (p : ProtocolConfig) (pl : PlatformConfig) : Prop where
  addressBits_pos : 1 ≤ p.addressBits.toNat
  addressBits_le  : p.addressBits.toNat ≤ a.widths.wField
  commandBits_pos : 1 ≤ p.commandBits.toNat
  commandBits_le  : p.commandBits.toNat ≤ a.widths.wField
  tol_le_data     : pl.tolerance.toNat ≤ p.dataBitPulse.toNat
  tol_le_start    : pl.tolerance.toNat ≤ p.startPulse.toNat
  tol_le_stop     : pl.tolerance.toNat ≤ p.stopPulse.toNat
  data_lt_shorter : p.dataBitPulse.toNat + 2 * pl.tolerance.toNat < p.shorter.toNat
  shorter_lt      : p.shorter.toNat + 2 * pl.tolerance.toNat < p.longer.toNat
  start_lt        : p.startPulse.toNat + 2 * pl.tolerance.toNat < p.startPeriod.toNat

/-- An admitted configuration's values fit their fields (R31, R33). -/
theorem fits_of_admits {a : Params} {p : ProtocolConfig} {pl : PlatformConfig} (h : admits a p pl = true) :
    (∀ f, (p.width f).toNat < 2 ^ a.widths.wCnt) ∧
    p.startPulse.toNat < 2 ^ a.widths.wDur ∧ p.startPeriod.toNat < 2 ^ a.widths.wDur ∧
    p.stopPulse.toNat < 2 ^ a.widths.wDur ∧ p.dataBitPulse.toNat < 2 ^ a.widths.wDur ∧
    p.shorter.toNat < 2 ^ a.widths.wDur ∧ p.longer.toNat < 2 ^ a.widths.wDur ∧
    pl.tolerance.toNat < 2 ^ a.widths.wDur := by
  simp only [admits, valuesFit, Bool.and_eq_true, decide_eq_true_eq] at h
  rw [shorter_toNat, longer_toNat]
  refine ⟨fun f => ?_, ?_⟩
  · cases f <;> simp <;> omega
  · omega

/-- An admitted configuration has the bounds. -/
theorem bounds_of_admits {a : Params} {p : ProtocolConfig} {pl : PlatformConfig} (h : admits a p pl = true) :
    Bounds a p pl := by
  simp only [admits, addrWidthOk, cmdWidthOk, toleranceFits, dataBandsOrdered, startBandsOrdered,
    Bool.and_eq_true, decide_eq_true_eq] at h
  simp only [hi, lo] at h
  constructor <;> omega

/-- The width of a field is from 1 to `W_FIELD` in an admitted configuration. -/
theorem Bounds.width {a : Params} {p : ProtocolConfig} {pl : PlatformConfig} (h : Bounds a p pl) (f : Field) :
    1 ≤ (p.width f).toNat ∧ (p.width f).toNat ≤ a.widths.wField := by
  cases f
  · exact ⟨h.addressBits_pos, h.addressBits_le⟩
  · exact ⟨h.addressBits_pos, h.addressBits_le⟩
  · exact ⟨h.commandBits_pos, h.commandBits_le⟩
  · exact ⟨h.commandBits_pos, h.commandBits_le⟩

end Sys2Proof.Machine
end

