-- ==== Sys2Proof/Laws/Classifier.lean ====
section
/-! SUPPORT. What each classifier can answer. -/

namespace Sys2Proof.Machine

/-- The data classifier completes a symbol only on a high level, in the shorter or the longer period's band. -/
theorem classifyData_completes {a : BitAssign} {p : ProtocolConfig} {pl : PlatformConfig} {e : Nat} {l : Level} {b : Bool}
    (h : classifyData a p pl e l = .completes b) :
    l = .high ∧
      ((lo p.shorter pl ≤ e ∧ e ≤ hi p.shorter pl ∧ b = shorterBit a p) ∨
       (lo p.longer pl ≤ e ∧ e ≤ hi p.longer pl ∧ b = !shorterBit a p)) := by
  unfold classifyData at h
  cases l <;> (split at h <;> try split at h) <;> simp_all <;>
    (split at h <;> simp_all) <;> (split at h <;> simp_all) <;> (split at h <;> simp_all) <;>
    (split at h <;> simp_all)

/-- The start classifier completes its symbol only on a high level, in the period's band. -/
theorem classifyStart_completes {p : ProtocolConfig} {pl : PlatformConfig} {e : Nat} {l : Level} {b : Unit}
    (h : classifyStart p pl e l = .completes b) :
    l = .high ∧ lo p.startPeriod pl ≤ e ∧ e ≤ hi p.startPeriod pl := by
  unfold classifyStart at h
  cases l <;> (split at h <;> try split at h) <;> simp_all <;> (split at h <;> simp_all)
    <;> (split at h <;> simp_all)

/-- The stop classifier completes its symbol only on a low level. -/
theorem classifyStop_completes {a : StopLateLow} {p : ProtocolConfig} {pl : PlatformConfig} {e : Nat} {l : Level} {b : Unit}
    (h : classifyStop a p pl e l = .completes b) : l = .low := by
  unfold classifyStop at h
  cases l
  · rfl
  · (split at h <;> try split at h) <;> simp_all

section Data

variable {c : BitAssign} {p : ProtocolConfig} {pl : PlatformConfig} {e : Nat} {l : Level}

/-- Before the data mark's band (band 1). -/
theorem classifyData_before (h : e + pl.tolerance.toNat < p.dataBitPulse.toNat) :
    classifyData c p pl e l = match l with
      | .low => .errs .pulseTooShort
      | .high => .continues := by
  have h' : e < lo p.dataBitPulse pl := by unfold lo; omega
  cases l <;> simp [classifyData, h']

/-- In the data mark's band (band 2). -/
theorem classifyData_mark (h : p.dataBitPulse.toNat ≤ e + pl.tolerance.toNat)
    (h' : e ≤ p.dataBitPulse.toNat + pl.tolerance.toNat) : classifyData c p pl e l = .continues := by
  have h₁ : ¬ e < lo p.dataBitPulse pl := by unfold lo; omega
  have h₂ : e ≤ hi p.dataBitPulse pl := by unfold hi; omega
  simp [classifyData, h₁, h₂]

/-- A low level after the data mark, up to the end of the longer period's band, is the space (bands 3 to 6). -/
theorem classifyData_space (h : p.dataBitPulse.toNat + pl.tolerance.toNat < e)
    (h' : e ≤ p.longer.toNat + pl.tolerance.toNat) : classifyData c p pl e .low = .continues := by
  have h₁ : ¬ e < lo p.dataBitPulse pl := by unfold lo; omega
  have h₂ : ¬ e ≤ hi p.dataBitPulse pl := by unfold hi; omega
  have h₃ : e ≤ hi p.longer pl := by unfold hi; omega
  simp [classifyData, h₁, h₂, h₃]

/-- A high level in the shorter period's band (band 4). -/
theorem classifyData_shorter {a : Params} (hb : Bounds a p pl) (h : p.shorter.toNat ≤ e + pl.tolerance.toNat)
    (h' : e ≤ p.shorter.toNat + pl.tolerance.toNat) :
    classifyData c p pl e .high = .completes (shorterBit c p) := by
  have hs := hb.data_lt_shorter
  have h₁ : ¬ e < lo p.dataBitPulse pl := by unfold lo; omega
  have h₂ : ¬ e ≤ hi p.dataBitPulse pl := by unfold hi; omega
  have h₃ : ¬ e < lo p.shorter pl := by unfold lo; omega
  have h₄ : e ≤ hi p.shorter pl := by unfold hi; omega
  simp [classifyData, h₁, h₂, h₃, h₄]

/-- A high level in the longer period's band (band 6). -/
theorem classifyData_longer {a : Params} (hb : Bounds a p pl) (h : p.longer.toNat ≤ e + pl.tolerance.toNat)
    (h' : e ≤ p.longer.toNat + pl.tolerance.toNat) :
    classifyData c p pl e .high = .completes (!shorterBit c p) := by
  have hs := hb.data_lt_shorter
  have hl := hb.shorter_lt
  have h₁ : ¬ e < lo p.dataBitPulse pl := by unfold lo; omega
  have h₂ : ¬ e ≤ hi p.dataBitPulse pl := by unfold hi; omega
  have h₃ : ¬ e < lo p.shorter pl := by unfold lo; omega
  have h₄ : ¬ e ≤ hi p.shorter pl := by unfold hi; omega
  have h₅ : ¬ e < lo p.longer pl := by unfold lo; omega
  have h₆ : e ≤ hi p.longer pl := by unfold hi; omega
  simp [classifyData, h₁, h₂, h₃, h₄, h₅, h₆]

/-- Past the longer period's band (band 7). -/
theorem classifyData_past {a : Params} (hb : Bounds a p pl) (h : p.longer.toNat + pl.tolerance.toNat < e) :
    classifyData c p pl e l = .errs .symbolPeriodTooLong := by
  have hs := hb.data_lt_shorter
  have hl := hb.shorter_lt
  have h₁ : ¬ e < lo p.dataBitPulse pl := by unfold lo; omega
  have h₂ : ¬ e ≤ hi p.dataBitPulse pl := by unfold hi; omega
  have h₃ : ¬ e < lo p.shorter pl := by unfold lo; omega
  have h₄ : ¬ e ≤ hi p.shorter pl := by unfold hi; omega
  have h₅ : ¬ e < lo p.longer pl := by unfold lo; omega
  have h₆ : ¬ e ≤ hi p.longer pl := by unfold hi; omega
  simp [classifyData, h₁, h₂, h₃, h₄, h₅, h₆]

end Data

section Start

variable {p : ProtocolConfig} {pl : PlatformConfig} {e : Nat} {l : Level}

/-- Before the start mark's band. -/
theorem classifyStart_before (h : e + pl.tolerance.toNat < p.startPulse.toNat) :
    classifyStart p pl e l = match l with
      | .low => .errs .pulseTooShort
      | .high => .continues := by
  have h' : e < lo p.startPulse pl := by unfold lo; omega
  cases l <;> simp [classifyStart, h']

/-- In the start mark's band. -/
theorem classifyStart_mark (h : p.startPulse.toNat ≤ e + pl.tolerance.toNat)
    (h' : e ≤ p.startPulse.toNat + pl.tolerance.toNat) : classifyStart p pl e l = .continues := by
  have h₁ : ¬ e < lo p.startPulse pl := by unfold lo; omega
  have h₂ : e ≤ hi p.startPulse pl := by unfold hi; omega
  simp [classifyStart, h₁, h₂]

/-- Between the start mark's band and the period's band. -/
theorem classifyStart_space (h : p.startPulse.toNat + pl.tolerance.toNat < e)
    (h' : e + pl.tolerance.toNat < p.startPeriod.toNat) :
    classifyStart p pl e l = match l with
      | .low => .continues
      | .high => .errs .unexpectedLineHigh := by
  have h₁ : ¬ e < lo p.startPulse pl := by unfold lo; omega
  have h₂ : ¬ e ≤ hi p.startPulse pl := by unfold hi; omega
  have h₃ : e < lo p.startPeriod pl := by unfold lo; omega
  cases l <;> simp [classifyStart, h₁, h₂, h₃]

/-- In the start period's band. -/
theorem classifyStart_period {a : Params} (hb : Bounds a p pl) (h : p.startPeriod.toNat ≤ e + pl.tolerance.toNat)
    (h' : e ≤ p.startPeriod.toNat + pl.tolerance.toNat) :
    classifyStart p pl e l = match l with
      | .low => .continues
      | .high => .completes () := by
  have hs := hb.start_lt
  have h₁ : ¬ e < lo p.startPulse pl := by unfold lo; omega
  have h₂ : ¬ e ≤ hi p.startPulse pl := by unfold hi; omega
  have h₃ : ¬ e < lo p.startPeriod pl := by unfold lo; omega
  have h₄ : e ≤ hi p.startPeriod pl := by unfold hi; omega
  cases l <;> simp [classifyStart, h₁, h₂, h₃, h₄]

/-- Past the start period's band. -/
theorem classifyStart_past {a : Params} (hb : Bounds a p pl) (h : p.startPeriod.toNat + pl.tolerance.toNat < e) :
    classifyStart p pl e l = .errs .symbolPeriodTooLong := by
  have hs := hb.start_lt
  have h₁ : ¬ e < lo p.startPulse pl := by unfold lo; omega
  have h₂ : ¬ e ≤ hi p.startPulse pl := by unfold hi; omega
  have h₃ : ¬ e < lo p.startPeriod pl := by unfold lo; omega
  have h₄ : ¬ e ≤ hi p.startPeriod pl := by unfold hi; omega
  simp [classifyStart, h₁, h₂, h₃, h₄]

end Start

section Stop

variable {a : StopLateLow} {p : ProtocolConfig} {pl : PlatformConfig} {e : Nat} {l : Level}

/-- Before the stop mark's band. -/
theorem classifyStop_before (h : e + pl.tolerance.toNat < p.stopPulse.toNat) :
    classifyStop a p pl e l = match l with
      | .low => .errs .pulseTooShort
      | .high => .continues := by
  have h' : e < lo p.stopPulse pl := by unfold lo; omega
  cases l <;> simp [classifyStop, h']

/-- In the stop mark's band. -/
theorem classifyStop_mark (h : p.stopPulse.toNat ≤ e + pl.tolerance.toNat)
    (h' : e ≤ p.stopPulse.toNat + pl.tolerance.toNat) :
    classifyStop a p pl e l = match l with
      | .low => .completes ()
      | .high => .continues := by
  have h₁ : ¬ e < lo p.stopPulse pl := by unfold lo; omega
  have h₂ : e ≤ hi p.stopPulse pl := by unfold hi; omega
  cases l <;> simp [classifyStop, h₁, h₂]

/-- Past the stop mark's band. -/
theorem classifyStop_past (h : p.stopPulse.toNat + pl.tolerance.toNat < e) :
    classifyStop a p pl e l = match l with
      | .low => stopLateLow a
      | .high => .errs .unexpectedLineHigh := by
  have h₁ : ¬ e < lo p.stopPulse pl := by unfold lo; omega
  have h₂ : ¬ e ≤ hi p.stopPulse pl := by unfold hi; omega
  cases l <;> simp [classifyStop, h₁, h₂]

end Stop

end Sys2Proof.Machine
end

