-- ==== Sys2Proof/Laws/Decode.lean ====
section
/-! SUPPORT. The fields of an encoded word, and the stage classes by their values. -/

namespace Sys2Proof

@[simp] theorem levelOfBit_bit (l : Level) : levelOfBit l.bit = l := by
  cases l <;> rfl

@[simp] theorem bit_levelOfBit (b : Bool) : (levelOfBit b).bit = b := by
  cases b <;> rfl

@[simp] theorem opField_encodeInit : opField encodeInit = 0x1 := by decide

/-- The bit of a word at its position and nowhere else. -/
@[simp] theorem getLsbD_bitAt (b : Bool) (n i : Nat) : (bitAt b n).getLsbD i = (decide (i = n ∧ n < 72) && b) := by
  by_cases h : i = n <;> by_cases h72 : i < 72 <;> by_cases hlt : i < n <;>
    simp [bitAt, BitVec.getLsbD_shiftLeft, BitVec.getLsbD_setWidth, BitVec.getLsbD_ofBool, h, h72, hlt] <;> omega

/-- Bits [67:0] of the `op` field are 0. -/
theorem getLsbD_opAt_low (op : OpCode) {i : Nat} (h : i < 68) : (opAt op).getLsbD i = false := by
  simp [opAt, BitVec.getLsbD_shiftLeft, h]

@[simp] theorem opField_encodeSample (q : SampleArgs) : opField (encodeSample q) = 0x0 := by
  apply BitVec.eq_of_getLsbD_eq
  intro i hi
  simp only [opField, encodeSample, BitVec.getLsbD_extractLsb', BitVec.getLsbD_or, getLsbD_bitAt,
    BitVec.getLsbD_setWidth, opAt]
  interval_cases i <;> simp

/-- The operands of an encoded SAMPLE word are the operands it was made from. -/
@[simp] theorem sampleArgsOf_encodeSample (q : SampleArgs) : sampleArgsOf (encodeSample q) = q := by
  obtain ⟨l, t, s, p, f⟩ := q
  have ht : (encodeSample ⟨l, t, s, p, f⟩).extractLsb' 0 64 = t := by
    apply BitVec.eq_of_getLsbD_eq
    intro i hi
    have h : i < 68 ∧ i < 72 ∧ i ≠ 64 ∧ i ≠ 65 ∧ i ≠ 66 ∧ i ≠ 67 := by omega
    simp only [encodeSample, BitVec.getLsbD_extractLsb', BitVec.getLsbD_or, getLsbD_bitAt, BitVec.getLsbD_setWidth,
      Nat.zero_add, getLsbD_opAt_low _ h.1, h, hi]
    simp
  rw [sampleArgsOf, ht]
  simp only [encodeSample, BitVec.getLsbD_or, getLsbD_bitAt, BitVec.getLsbD_setWidth, opAt]
  simp

/-- The SAMPLE row of a class belongs to it. -/
@[simp] theorem StageRow.instr_row (r : StageRow) (q : SampleArgs) : (r.instr q).row? = some r := by
  cases r <;> rfl

/-- The SAMPLE row of a class has the operands it is given. -/
@[simp] theorem StageRow.instr_args (r : StageRow) (q : SampleArgs) : (r.instr q).args? = some q := by
  cases r <;> rfl

/-- A SAMPLE row encodes as its operands. -/
@[simp] theorem encode_instr (r : StageRow) (q : SampleArgs) : encode (r.instr q) = encodeSample q := by
  cases r <;> rfl

theorem rowOfStage_idle (c : StageCode) : rowOfStage c = .idle ↔ c = 0 := by
  unfold rowOfStage
  repeat' split
  all_goals simp_all
theorem rowOfStage_startSymbol (c : StageCode) : rowOfStage c = .startSymbol ↔ c = 1 := by
  unfold rowOfStage
  repeat' split
  all_goals simp_all
theorem rowOfStage_addr (c : StageCode) : rowOfStage c = .addr ↔ c = 2 := by
  unfold rowOfStage
  repeat' split
  all_goals simp_all
theorem rowOfStage_addrInv (c : StageCode) : rowOfStage c = .addrInv ↔ c = 3 := by
  unfold rowOfStage
  repeat' split
  all_goals simp_all
theorem rowOfStage_cmd (c : StageCode) : rowOfStage c = .cmd ↔ c = 4 := by
  unfold rowOfStage
  repeat' split
  all_goals simp_all
theorem rowOfStage_cmdInv (c : StageCode) : rowOfStage c = .cmdInv ↔ c = 5 := by
  unfold rowOfStage
  repeat' split
  all_goals simp_all
theorem rowOfStage_stopSymbol (c : StageCode) : rowOfStage c = .stopSymbol ↔ c = 6 := by
  unfold rowOfStage
  repeat' split
  all_goals simp_all
theorem rowOfStage_finished (c : StageCode) : rowOfStage c = .finished ↔ c = 7 := by
  unfold rowOfStage
  repeat' split
  all_goals simp_all
theorem rowOfStage_invalidStage (c : StageCode) : rowOfStage c = .invalidStage ↔ 7 < c.toNat := by
  unfold rowOfStage
  repeat' split
  all_goals simp_all
  bv_omega

/-- What the decoder answers, by the operation code. -/
theorem decode_cases (stage : StageCode) (w : RequestWord) :
    (opField w = 0x0 ∧ decode stage w = .ok ((rowOfStage stage).instr (sampleArgsOf w))) ∨
    (opField w = 0x1 ∧ decode stage w = .ok .init) ∨
    (opField w ≠ 0x0 ∧ opField w ≠ 0x1 ∧ decode stage w = .error (.reservedOp (opField w))) := by
  unfold decode
  by_cases h0 : opField w = 0x0
  · exact .inl ⟨h0, if_pos h0⟩
  · by_cases h1 : opField w = 0x1
    · exact .inr (.inl ⟨h1, by rw [if_neg h0, if_pos h1]⟩)
    · exact .inr (.inr ⟨h0, h1, by rw [if_neg h0, if_neg h1]⟩)

end Sys2Proof
end

