-- ==== Sys2Proof/Laws/State.lean ====
section
/-! SUPPORT. What each register update and each way of ending a request does to each field of the state, one lemma per
field, so that no later proof unfolds a record update. -/

namespace Sys2Proof.Machine

@[simp] theorem DecoderState.setStage_stage (d : DecoderState) (v : StageCode) : (d.setStage v).stage = v := rfl
@[simp] theorem DecoderState.setStage_bitIdx (d : DecoderState) (v : StageCode) : (d.setStage v).bitIdx = d.bitIdx := rfl
@[simp] theorem DecoderState.setStage_symbolStart (d : DecoderState) (v : StageCode) : (d.setStage v).symbolStart = d.symbolStart := rfl
@[simp] theorem DecoderState.setStage_addr (d : DecoderState) (v : StageCode) : (d.setStage v).addr = d.addr := rfl
@[simp] theorem DecoderState.setStage_cmd (d : DecoderState) (v : StageCode) : (d.setStage v).cmd = d.cmd := rfl
@[simp] theorem DecoderState.setStage_invAddr (d : DecoderState) (v : StageCode) : (d.setStage v).invAddr = d.invAddr := rfl
@[simp] theorem DecoderState.setStage_invCmd (d : DecoderState) (v : StageCode) : (d.setStage v).invCmd = d.invCmd := rfl
@[simp] theorem DecoderState.setStage_field (d : DecoderState) (v : StageCode) (f : Field) : (d.setStage v).field f = d.field f := by
  cases f <;> rfl

@[simp] theorem DecoderState.setBitIdx_stage (d : DecoderState) (v : Count) : (d.setBitIdx v).stage = d.stage := rfl
@[simp] theorem DecoderState.setBitIdx_bitIdx (d : DecoderState) (v : Count) : (d.setBitIdx v).bitIdx = v := rfl
@[simp] theorem DecoderState.setBitIdx_symbolStart (d : DecoderState) (v : Count) : (d.setBitIdx v).symbolStart = d.symbolStart := rfl
@[simp] theorem DecoderState.setBitIdx_addr (d : DecoderState) (v : Count) : (d.setBitIdx v).addr = d.addr := rfl
@[simp] theorem DecoderState.setBitIdx_cmd (d : DecoderState) (v : Count) : (d.setBitIdx v).cmd = d.cmd := rfl
@[simp] theorem DecoderState.setBitIdx_invAddr (d : DecoderState) (v : Count) : (d.setBitIdx v).invAddr = d.invAddr := rfl
@[simp] theorem DecoderState.setBitIdx_invCmd (d : DecoderState) (v : Count) : (d.setBitIdx v).invCmd = d.invCmd := rfl
@[simp] theorem DecoderState.setBitIdx_field (d : DecoderState) (v : Count) (f : Field) : (d.setBitIdx v).field f = d.field f := by
  cases f <;> rfl

@[simp] theorem DecoderState.setSymbolStart_stage (d : DecoderState) (v : Timestamp) : (d.setSymbolStart v).stage = d.stage := rfl
@[simp] theorem DecoderState.setSymbolStart_bitIdx (d : DecoderState) (v : Timestamp) : (d.setSymbolStart v).bitIdx = d.bitIdx := rfl
@[simp] theorem DecoderState.setSymbolStart_symbolStart (d : DecoderState) (v : Timestamp) : (d.setSymbolStart v).symbolStart = v := rfl
@[simp] theorem DecoderState.setSymbolStart_addr (d : DecoderState) (v : Timestamp) : (d.setSymbolStart v).addr = d.addr := rfl
@[simp] theorem DecoderState.setSymbolStart_cmd (d : DecoderState) (v : Timestamp) : (d.setSymbolStart v).cmd = d.cmd := rfl
@[simp] theorem DecoderState.setSymbolStart_invAddr (d : DecoderState) (v : Timestamp) : (d.setSymbolStart v).invAddr = d.invAddr := rfl
@[simp] theorem DecoderState.setSymbolStart_invCmd (d : DecoderState) (v : Timestamp) : (d.setSymbolStart v).invCmd = d.invCmd := rfl
@[simp] theorem DecoderState.setSymbolStart_field (d : DecoderState) (v : Timestamp) (f : Field) : (d.setSymbolStart v).field f = d.field f := by
  cases f <;> rfl

@[simp] theorem DecoderState.setField_stage (d : DecoderState) (f : Field) (v : FieldWord) : (d.setField f v).stage = d.stage := by
  cases f <;> rfl
@[simp] theorem DecoderState.setField_bitIdx (d : DecoderState) (f : Field) (v : FieldWord) : (d.setField f v).bitIdx = d.bitIdx := by
  cases f <;> rfl
@[simp] theorem DecoderState.setField_symbolStart (d : DecoderState) (f : Field) (v : FieldWord) : (d.setField f v).symbolStart = d.symbolStart := by
  cases f <;> rfl
@[simp] theorem DecoderState.setField_field_same (d : DecoderState) (f : Field) (v : FieldWord) :
    (d.setField f v).field f = v := by
  cases f <;> rfl

/-- Writing one field register leaves the others. -/
theorem DecoderState.setField_field_ne (d : DecoderState) {f g : Field} (v : FieldWord) (h : g ≠ f) :
    (d.setField f v).field g = d.field g := by
  cases f <;> cases g <;> first | rfl | exact absurd rfl h

@[simp] theorem DecoderState.setField_addr_addr (d : DecoderState) (v : FieldWord) : (d.setField .addr v).addr = v := rfl
@[simp] theorem DecoderState.setField_addr_cmd (d : DecoderState) (v : FieldWord) : (d.setField .addr v).cmd = d.cmd := rfl
@[simp] theorem DecoderState.setField_addr_invAddr (d : DecoderState) (v : FieldWord) : (d.setField .addr v).invAddr = d.invAddr := rfl
@[simp] theorem DecoderState.setField_addr_invCmd (d : DecoderState) (v : FieldWord) : (d.setField .addr v).invCmd = d.invCmd := rfl
@[simp] theorem DecoderState.setField_addrInv_addr (d : DecoderState) (v : FieldWord) : (d.setField .addrInv v).addr = d.addr := rfl
@[simp] theorem DecoderState.setField_addrInv_cmd (d : DecoderState) (v : FieldWord) : (d.setField .addrInv v).cmd = d.cmd := rfl
@[simp] theorem DecoderState.setField_addrInv_invAddr (d : DecoderState) (v : FieldWord) : (d.setField .addrInv v).invAddr = v := rfl
@[simp] theorem DecoderState.setField_addrInv_invCmd (d : DecoderState) (v : FieldWord) : (d.setField .addrInv v).invCmd = d.invCmd := rfl
@[simp] theorem DecoderState.setField_cmd_addr (d : DecoderState) (v : FieldWord) : (d.setField .cmd v).addr = d.addr := rfl
@[simp] theorem DecoderState.setField_cmd_cmd (d : DecoderState) (v : FieldWord) : (d.setField .cmd v).cmd = v := rfl
@[simp] theorem DecoderState.setField_cmd_invAddr (d : DecoderState) (v : FieldWord) : (d.setField .cmd v).invAddr = d.invAddr := rfl
@[simp] theorem DecoderState.setField_cmd_invCmd (d : DecoderState) (v : FieldWord) : (d.setField .cmd v).invCmd = d.invCmd := rfl
@[simp] theorem DecoderState.setField_cmdInv_addr (d : DecoderState) (v : FieldWord) : (d.setField .cmdInv v).addr = d.addr := rfl
@[simp] theorem DecoderState.setField_cmdInv_cmd (d : DecoderState) (v : FieldWord) : (d.setField .cmdInv v).cmd = d.cmd := rfl
@[simp] theorem DecoderState.setField_cmdInv_invAddr (d : DecoderState) (v : FieldWord) : (d.setField .cmdInv v).invAddr = d.invAddr := rfl
@[simp] theorem DecoderState.setField_cmdInv_invCmd (d : DecoderState) (v : FieldWord) : (d.setField .cmdInv v).invCmd = v := rfl
@[simp] theorem DecoderState.field_addr (d : DecoderState) : d.field .addr = d.addr := rfl
@[simp] theorem DecoderState.field_addrInv (d : DecoderState) : d.field .addrInv = d.invAddr := rfl
@[simp] theorem DecoderState.field_cmd (d : DecoderState) : d.field .cmd = d.cmd := rfl
@[simp] theorem DecoderState.field_cmdInv (d : DecoderState) : d.field .cmdInv = d.invCmd := rfl

@[simp] theorem recover_regs (s : State) : (recover s).regs = DecoderState.zero := rfl
@[simp] theorem recover_protocol (s : State) : (recover s).protocol = s.protocol := rfl
@[simp] theorem recover_platform (s : State) : (recover s).platform = s.platform := rfl
@[simp] theorem recover_params (s : State) : (recover s).params = s.params := rfl
@[simp] theorem recover_errSeen (s : State) : (recover s).errSeen = false := rfl
@[simp] theorem recover_response (s : State) : (recover s).response = s.response := rfl
@[simp] theorem recover_requests (s : State) : (recover s).requests = s.requests := rfl
@[simp] theorem recover_draws (s : State) : (recover s).draws = s.draws := rfl
@[simp] theorem present_regs (r : Request) (rest : List Request) (s : State) : (present r rest s).regs = s.regs := rfl
@[simp] theorem present_protocol (r : Request) (rest : List Request) (s : State) : (present r rest s).protocol = r.protocol := rfl
@[simp] theorem present_platform (r : Request) (rest : List Request) (s : State) : (present r rest s).platform = r.platform := rfl
@[simp] theorem present_params (r : Request) (rest : List Request) (s : State) : (present r rest s).params = s.params := rfl
@[simp] theorem present_errSeen (r : Request) (rest : List Request) (s : State) : (present r rest s).errSeen = s.errSeen := rfl
@[simp] theorem present_response (r : Request) (rest : List Request) (s : State) : (present r rest s).response = s.response := rfl
@[simp] theorem present_requests (r : Request) (rest : List Request) (s : State) : (present r rest s).requests = rest := rfl
@[simp] theorem present_draws (r : Request) (rest : List Request) (s : State) : (present r rest s).draws = s.draws := rfl
@[simp] theorem issue_regs (r : Request) (s : State) : (issue r s).regs = s.regs := rfl
@[simp] theorem issue_protocol (r : Request) (s : State) : (issue r s).protocol = s.protocol := rfl
@[simp] theorem issue_platform (r : Request) (s : State) : (issue r s).platform = s.platform := rfl
@[simp] theorem issue_params (r : Request) (s : State) : (issue r s).params = s.params := rfl
@[simp] theorem issue_errSeen (r : Request) (s : State) : (issue r s).errSeen = s.errSeen := rfl
@[simp] theorem issue_response (r : Request) (s : State) : (issue r s).response = s.response := rfl
@[simp] theorem issue_requests (r : Request) (s : State) : (issue r s).requests = r :: s.requests := rfl
@[simp] theorem issue_draws (r : Request) (s : State) : (issue r s).draws = s.draws := rfl
@[simp] theorem DecoderState.zero_stage : DecoderState.zero.stage = 0 := rfl
@[simp] theorem DecoderState.zero_bitIdx : DecoderState.zero.bitIdx = 0 := rfl
@[simp] theorem DecoderState.zero_symbolStart : DecoderState.zero.symbolStart = 0 := rfl
@[simp] theorem DecoderState.zero_addr : DecoderState.zero.addr = 0 := rfl
@[simp] theorem DecoderState.zero_cmd : DecoderState.zero.cmd = 0 := rfl
@[simp] theorem DecoderState.zero_invAddr : DecoderState.zero.invAddr = 0 := rfl
@[simp] theorem DecoderState.zero_invCmd : DecoderState.zero.invCmd = 0 := rfl

/-- All that `return Ok` can do: the request's writes, and the response. -/
theorem returnOk_next {s t : State} : returnOk s = .next t ↔ t = { s with response := some .ok } :=
  ⟨fun h => (Host.Outcome.next.inj h).symm, fun h => h ▸ rfl⟩

/-- All that an error can do: the ghost bit and the response. -/
theorem raise_next {k : ErrorKind} {s t : State} :
    raise k s = .next t ↔ t = { s with errSeen := true, response := some (.error k) } :=
  ⟨fun h => (Host.Outcome.next.inj h).symm, fun h => h ▸ rfl⟩

/-- `return Ok` never refuses. -/
theorem returnOk_ne_refused (s : State) (r : Refusal) : returnOk s ≠ .refused r := nofun

/-- An error never refuses. -/
theorem raise_ne_refused (k : ErrorKind) (s : State) (r : Refusal) : raise k s ≠ .refused r := nofun

/-- The next request is the head of the host's queue. -/
theorem fetch_cons {s : State} {r : Request} {rest : List Request} (h : s.requests = r :: rest) :
    fetch s = some (r, present r rest s) := by
  simp only [fetch, h]

/-- There is no next request when the queue is empty. -/
theorem fetch_nil {s : State} (h : s.requests = []) : fetch s = none := by
  simp only [fetch, h]

end Sys2Proof.Machine
end

