-- ==== Sys2Proof/Laws/Handlers.lean ====
section
/-! SUPPORT. All that each handler can do, once: if it answers a next state, one of these cases holds. No handler
refuses. -/

namespace Sys2Proof.Machine

/-- The registers after a data bit that ends its field (R161, R162). -/
theorem accumulate_of_ends {f : Field} {nxt : StageCode} {b : Bool} {t : Timestamp} {s : State} (h : fieldEnds f s = true) :
    accumulate f nxt b t s = { s with
      regs := (((s.regs.setField f (accumulated s.params.widths.wField f b s.regs)).setSymbolStart t).setBitIdx 0).setStage nxt } := by
  simp [accumulate, h]

/-- The registers after a data bit that does not end its field (R161). -/
theorem accumulate_of_not_ends {f : Field} {nxt : StageCode} {b : Bool} {t : Timestamp} {s : State}
    (h : fieldEnds f s = false) :
    accumulate f nxt b t s = { s with
      regs := ((s.regs.setField f (accumulated s.params.widths.wField f b s.regs)).setSymbolStart t).setBitIdx (nextBitIdx s),
      draws := nextDraws s } := by
  simp [accumulate, h]

/-- A register of `w` = `W_FIELD` bits stays one (R20). -/
theorem accumulated_fits (w : Nat) (f : Field) (b : Bool) (d : DecoderState) :
    (accumulated w f b d).toNat < 2 ^ w := by
  rw [accumulated, BitVec.toNat_setWidth]
  exact Nat.lt_of_le_of_lt (Nat.mod_le _ _) (BitVec.isLt _)

/-- Accumulating keeps every field register within `W_FIELD` bits (R20). -/
theorem accumulate_field_lt {f : Field} {nxt : StageCode} {b : Bool} {t : Timestamp} {s : State}
    (h : ∀ g, (s.regs.field g).toNat < 2 ^ s.params.widths.wField) (g : Field) :
    ((accumulate f nxt b t s).regs.field g).toNat < 2 ^ s.params.widths.wField := by
  have hf : ((s.regs.setField f (accumulated s.params.widths.wField f b s.regs)).field g).toNat < 2 ^ s.params.widths.wField := by
    by_cases hg : g = f
    · subst hg; simpa using accumulated_fits _ _ _ _
    · rw [DecoderState.setField_field_ne _ _ hg]; exact h g
  unfold accumulate
  split <;> simpa using hf

/-- Where the sum fits the register, `bit_idx` goes up by one and no free value is used. -/
theorem nextBitIdx_of_lt {s : State} (h : s.regs.bitIdx.toNat + 1 < 2 ^ s.params.widths.wCnt) :
    nextBitIdx s = s.regs.bitIdx + 1 ∧ nextDraws s = s.draws := by
  simp [nextBitIdx, nextDraws, incrementFits, h]

/-- `bit_idx` stays within its `W_CNT` bits, whatever the free value (R20). -/
theorem nextBitIdx_fits (s : State) : (nextBitIdx s).toNat < 2 ^ s.params.widths.wCnt := by
  unfold nextBitIdx
  split
  · rename_i h
    have h' : s.regs.bitIdx.toNat + 1 < 2 ^ s.params.widths.wCnt := by simpa [incrementFits] using h
    have : 2 ^ s.params.widths.wCnt ≤ 2 ^ 16 := Nat.pow_le_pow_right (by decide) s.params.widths.cnt_ok.2
    rw [BitVec.toNat_add]
    simp
    omega
  · rw [BitVec.toNat_setWidth]
    exact Nat.lt_of_le_of_lt (Nat.mod_le _ _) (BitVec.isLt _)

/-- The field end test, as an equation. -/
theorem fieldEnds_iff {f : Field} {s : State} :
    fieldEnds f s = true ↔ s.regs.bitIdx.toNat + 1 = (s.protocol.width f).toNat := by
  simp [fieldEnds]

/-- The complement test, as an equation. -/
theorem inverseMatches_iff {f : Field} {p : FieldWord} {b : Bool} {s : State} :
    inverseMatches f p b s = true ↔ accumulated s.params.widths.wField f b s.regs = ~~~p &&& mask (s.protocol.width f).toNat := by
  simp [inverseMatches]

/-- Where the field has no bit at or above `bit_idx`, the new bit adds its power of two (R161). -/
theorem accumulated_toNat {w : Nat} {f : Field} {b : Bool} {d : DecoderState}
    (h : (d.field f).toNat < 2 ^ d.bitIdx.toNat) (hi : d.bitIdx.toNat < w) (hw : w ≤ 255) :
    (accumulated w f b d).toNat = (d.field f).toNat + b.toNat * 2 ^ d.bitIdx.toNat := by
  have hp : 2 ^ d.bitIdx.toNat < 2 ^ w := Nat.pow_lt_pow_right (by decide) hi
  have hq : 2 ^ w ≤ 2 ^ 255 := Nat.pow_le_pow_right (by decide) hw
  have hs : ((BitVec.ofBool b).setWidth w <<< d.bitIdx.toNat).toNat = b.toNat * 2 ^ d.bitIdx.toNat := by
    have h1 : 1 % 2 ^ w = 1 := Nat.mod_eq_of_lt (by omega)
    rw [BitVec.toNat_shiftLeft, Nat.shiftLeft_eq, BitVec.toNat_setWidth]
    cases b
    · simp
    · simpa [h1] using Nat.mod_eq_of_lt hp
  have hf : ((d.field f).setWidth w).toNat = (d.field f).toNat := by
    rw [BitVec.toNat_setWidth, Nat.mod_eq_of_lt (by omega)]
  have hv : ((d.field f).setWidth w ||| ((BitVec.ofBool b).setWidth w <<< d.bitIdx.toNat)).toNat =
      (d.field f).toNat + b.toNat * 2 ^ d.bitIdx.toNat := by
    rw [BitVec.toNat_or, hs, hf, Nat.or_comm, ← Nat.shiftLeft_eq, ← Nat.shiftLeft_add_eq_or_of_lt h, Nat.add_comm]
  rw [accumulated, BitVec.toNat_setWidth, hv, Nat.mod_eq_of_lt]
  have := BitVec.isLt ((d.field f).setWidth w ||| ((BitVec.ofBool b).setWidth w <<< d.bitIdx.toNat))
  omega

/-- The accumulated value has no bit above the new one. -/
theorem accumulated_lt {w : Nat} {f : Field} {b : Bool} {d : DecoderState} (h : (d.field f).toNat < 2 ^ d.bitIdx.toNat)
    (hi : d.bitIdx.toNat < w) (hw : w ≤ 255) : (accumulated w f b d).toNat < 2 ^ (d.bitIdx.toNat + 1) := by
  rw [accumulated_toNat h hi hw, Nat.pow_succ]
  cases b <;> simp <;> omega

/-- The Idle handler. -/
theorem handleIdle_next {l : Level} {t : Timestamp} {s u : State} (h : handleIdle l t s = .next u) :
    (l = .low ∧ u = { s with response := some .ok }) ∨
    (l = .high ∧ u = { s with regs := (s.regs.setSymbolStart t).setStage 1, response := some .ok }) := by
  cases l
  · exact .inl ⟨rfl, returnOk_next.mp h⟩
  · exact .inr ⟨rfl, returnOk_next.mp h⟩

/-- The StartSymbol handler. -/
theorem handleStartSymbol_next {l : Level} {t : Timestamp} {s u : State} (h : handleStartSymbol l t s = .next u) :
    (∃ k, u = { s with errSeen := true, response := some (.error k) } ∧
      classifyStart s.protocol s.platform (elapsed t s.regs) l = .errs k) ∨
    (u = { s with response := some .ok }) ∨
    (l = .high ∧ u = { s with regs := (s.regs.setSymbolStart t).setStage 2, response := some .ok }) := by
  unfold handleStartSymbol at h
  split at h
  · exact .inl ⟨_, raise_next.mp h, ‹_›⟩
  · exact .inr (.inl (returnOk_next.mp h))
  · exact .inr (.inr ⟨(classifyStart_completes ‹_›).1, returnOk_next.mp h⟩)

/-- The StopSymbol handler. -/
theorem handleStopSymbol_next {l : Level} {t : Timestamp} {s u : State} (h : handleStopSymbol l t s = .next u) :
    (∃ k, u = { s with errSeen := true, response := some (.error k) } ∧
      classifyStop s.params.stopLateLow s.protocol s.platform (elapsed t s.regs) l = .errs k) ∨
    (u = { s with response := some .ok }) ∨
    (l = .low ∧ u = { s with regs := s.regs.setStage 7, response := some .ok }) := by
  unfold handleStopSymbol at h
  split at h
  · exact .inl ⟨_, raise_next.mp h, ‹_›⟩
  · exact .inr (.inl (returnOk_next.mp h))
  · exact .inr (.inr ⟨classifyStop_completes ‹_›, returnOk_next.mp h⟩)

/-- A primary field handler. -/
theorem primaryField_next {f : Field} {nxt : StageCode} {l : Level} {t : Timestamp} {s u : State}
    (h : primaryField f nxt l t s = .next u) :
    (∃ k, u = { s with errSeen := true, response := some (.error k) } ∧
      classifyData s.params.bitAssign s.protocol s.platform (elapsed t s.regs) l = .errs k) ∨
    (u = { s with response := some .ok }) ∨
    (∃ b, l = .high ∧ classifyData s.params.bitAssign s.protocol s.platform (elapsed t s.regs) l = .completes b ∧
      u = { accumulate f nxt b t s with response := some .ok }) := by
  unfold primaryField at h
  split at h
  · exact .inl ⟨_, raise_next.mp h, ‹_›⟩
  · exact .inr (.inl (returnOk_next.mp h))
  · exact .inr (.inr ⟨_, (classifyData_completes ‹_›).1, ‹_›, returnOk_next.mp h⟩)

/-- An inverse field handler. -/
theorem inverseField_next {f : Field} {nxt : StageCode} {p : FieldWord} {l : Level} {t : Timestamp} {s u : State}
    (h : inverseField f nxt p l t s = .next u) :
    (∃ k, u = { s with errSeen := true, response := some (.error k) } ∧
      (classifyData s.params.bitAssign s.protocol s.platform (elapsed t s.regs) l = .errs k ∨
        k = .inverseMismatch)) ∨
    (u = { s with response := some .ok }) ∨
    (∃ b, l = .high ∧ classifyData s.params.bitAssign s.protocol s.platform (elapsed t s.regs) l = .completes b ∧
      (fieldEnds f s = true → inverseMatches f p b s = true) ∧
      u = { accumulate f nxt b t s with response := some .ok }) := by
  unfold inverseField at h
  split at h
  · exact .inl ⟨_, raise_next.mp h, .inl ‹_›⟩
  · exact .inr (.inl (returnOk_next.mp h))
  · split at h
    · exact .inl ⟨_, raise_next.mp h, .inr rfl⟩
    · exact .inr (.inr ⟨_, (classifyData_completes ‹_›).1, ‹_›, by simp_all, returnOk_next.mp h⟩)

/-- The Finished policy. -/
theorem finishedPolicy_next {s u : State} (h : finishedPolicy s = .next u) :
    u = { s with response := some .ok } ∨
    u = { s with errSeen := true, response := some (.error .invalidStage) } := by
  unfold finishedPolicy at h
  split at h
  · exact .inl (returnOk_next.mp h)
  · exact .inr (raise_next.mp h)

/-- Handlers answer a next state: none refuses. -/
theorem handleIdle_total (l : Level) (t : Timestamp) (s : State) : ∃ u, handleIdle l t s = .next u := by
  cases l <;> exact ⟨_, rfl⟩

theorem handleStartSymbol_total (l : Level) (t : Timestamp) (s : State) : ∃ u, handleStartSymbol l t s = .next u := by
  unfold handleStartSymbol
  split <;> exact ⟨_, rfl⟩

theorem handleStopSymbol_total (l : Level) (t : Timestamp) (s : State) : ∃ u, handleStopSymbol l t s = .next u := by
  unfold handleStopSymbol
  split <;> exact ⟨_, rfl⟩

theorem primaryField_total (f : Field) (nxt : StageCode) (l : Level) (t : Timestamp) (s : State) :
    ∃ u, primaryField f nxt l t s = .next u := by
  unfold primaryField
  split <;> exact ⟨_, rfl⟩

theorem inverseField_total (f : Field) (nxt : StageCode) (p : FieldWord) (l : Level) (t : Timestamp) (s : State) :
    ∃ u, inverseField f nxt p l t s = .next u := by
  unfold inverseField
  split
  · exact ⟨_, rfl⟩
  · exact ⟨_, rfl⟩
  · split <;> exact ⟨_, rfl⟩

theorem finishedPolicy_total (s : State) : ∃ u, finishedPolicy s = .next u := by
  unfold finishedPolicy
  split <;> exact ⟨_, rfl⟩

end Sys2Proof.Machine
end

