-- ==== Sys2Proof/Laws/PerInstr.lean ====
section
/-! SUPPORT. A fact about every request as syntax: the operation code of its word (R71). -/

namespace Sys2Proof.Laws.OpField

/-- The word of INIT has operation code 1, the word of every SAMPLE row has 0. -/
def Statement (i : Instr) : Prop := opField (encode i) = if i.args?.isSome then 0x0 else 0x1

theorem init : Statement .init := opField_encodeInit
theorem sampleIdle (q : SampleArgs) : Statement (.sampleIdle q) := opField_encodeSample q
theorem sampleStartSymbol (q : SampleArgs) : Statement (.sampleStartSymbol q) := opField_encodeSample q
theorem sampleAddr (q : SampleArgs) : Statement (.sampleAddr q) := opField_encodeSample q
theorem sampleAddrInv (q : SampleArgs) : Statement (.sampleAddrInv q) := opField_encodeSample q
theorem sampleCmd (q : SampleArgs) : Statement (.sampleCmd q) := opField_encodeSample q
theorem sampleCmdInv (q : SampleArgs) : Statement (.sampleCmdInv q) := opField_encodeSample q
theorem sampleStopSymbol (q : SampleArgs) : Statement (.sampleStopSymbol q) := opField_encodeSample q
theorem sampleFinished (q : SampleArgs) : Statement (.sampleFinished q) := opField_encodeSample q
theorem sampleInvalidStage (q : SampleArgs) : Statement (.sampleInvalidStage q) := opField_encodeSample q

end Sys2Proof.Laws.OpField
end

