-- ==== Sys2Proof/Laws/Sample.lean ====
section
/-! SUPPORT. All that the dispatcher can do, once. -/

namespace Sys2Proof.Machine

/-- A SAMPLE that passes every check of R101 runs its row's handler. -/
theorem sample_of_ready {row : StageRow} {q : SampleArgs} {h : State → Host.Outcome State Fault Refusal} {s : State}
    (hs : q.statePresent = true) (hp : q.protoPresent = true) (hf : q.platPresent = true) (ha : s.admitted = true)
    (hr : rowOfStage s.regs.stage = row) : sample row q h s = h s := by
  simp [sample, hs, hp, hf, ha, hr]

/-- If a SAMPLE answers a next state, it raised a null error, or it passed every check and its handler answered. -/
theorem sample_next {row : StageRow} {q : SampleArgs} {h : State → Host.Outcome State Fault Refusal} {s t : State}
    (hn : sample row q h s = .next t) :
    (∃ k, t = { s with errSeen := true, response := some (.error k) } ∧
      (k = .nullState ∨ k = .nullProtocol ∨ k = .nullPlatform)) ∨
    (q.statePresent = true ∧ q.protoPresent = true ∧ q.platPresent = true ∧ s.admitted = true ∧
      rowOfStage s.regs.stage = row ∧ h s = .next t) := by
  unfold sample at hn
  split at hn
  · exact .inl ⟨_, raise_next.mp hn, by simp⟩
  · split at hn
    · exact .inl ⟨_, raise_next.mp hn, by simp⟩
    · split at hn
      · exact .inl ⟨_, raise_next.mp hn, by simp⟩
      · split at hn
        · cases hn
        · split at hn
          · cases hn
          · simp_all

/-- If a SAMPLE is refused, every reference was present, and either admission failed, or the stage does not select the row,
or the handler refused. -/
theorem sample_refused {row : StageRow} {q : SampleArgs} {h : State → Host.Outcome State Fault Refusal} {s : State}
    {r : Refusal} (hn : sample row q h s = .refused r) :
    q.statePresent = true ∧ q.protoPresent = true ∧ q.platPresent = true ∧
    ((s.admitted = false ∧ r = .configNotAdmitted) ∨
     (s.admitted = true ∧ rowOfStage s.regs.stage ≠ row ∧ r = .rowNotSelected) ∨
     (s.admitted = true ∧ rowOfStage s.regs.stage = row ∧ h s = .refused r)) := by
  unfold sample at hn
  split at hn
  · exact absurd hn (raise_ne_refused _ _ _)
  · split at hn
    · exact absurd hn (raise_ne_refused _ _ _)
    · split at hn
      · exact absurd hn (raise_ne_refused _ _ _)
      · split at hn
        · cases hn; simp_all
        · split at hn
          · cases hn; simp_all
          · simp_all

end Sys2Proof.Machine
end

