-- ==== Sys2Proof/Laws/Step.lean ====
section
/-! SUPPORT. All that a request and a step can do. -/

namespace Sys2Proof.Machine

/-- What a request that answers a next state can have done to the state `s`. -/
inductive Effect (s : State) : State → Prop
  /-- It failed: nothing but the ghost bit and the response (R213). -/
  | failed (k : ErrorKind) : Effect s { s with errSeen := true, response := some (.error k) }
  /-- It returned `Ok` and wrote nothing. -/
  | stayed : Effect s { s with response := some .ok }
  /-- It returned `Ok` with these registers, having used these free values. -/
  | wrote (d : DecoderState) (n : Nat) : Effect s { s with regs := d, draws := n, response := some .ok }
  /-- It was INIT. -/
  | initialised : Effect s { s with regs := DecoderState.zero, errSeen := false, response := some .ok }

/-- Accumulating a bit writes registers and the counter of free values, nothing else. -/
theorem accumulate_effect (f : Field) (nxt : StageCode) (b : Bool) (t : Timestamp) (s : State) :
    Effect s { accumulate f nxt b t s with response := some .ok } := by
  cases h : fieldEnds f s
  · rw [accumulate_of_not_ends h]; exact .wrote _ _
  · rw [accumulate_of_ends h]; exact .wrote _ s.draws

/-- Every request that answers a next state has one of the four effects. -/
theorem exec_effect {i : Instr} {s t : State} (h : exec i s = .next t) : Effect s t := by
  have primary {f : Field} {nxt : StageCode} {l : Level} {ts : Timestamp} (hp : primaryField f nxt l ts s = .next t) :
      Effect s t := by
    obtain ⟨k, rfl, -⟩ | rfl | ⟨b, -, -, rfl⟩ := primaryField_next hp
    · exact .failed k
    · exact .stayed
    · exact accumulate_effect ..
  have inverse {f : Field} {nxt : StageCode} {p : FieldWord} {l : Level} {ts : Timestamp}
      (hp : inverseField f nxt p l ts s = .next t) : Effect s t := by
    obtain ⟨k, rfl, -⟩ | rfl | ⟨b, -, -, -, rfl⟩ := inverseField_next hp
    · exact .failed k
    · exact .stayed
    · exact accumulate_effect ..
  cases i with
  | init => obtain rfl := returnOk_next.mp h; exact .initialised
  | sampleIdle q =>
    obtain ⟨k, rfl, -⟩ | ⟨-, -, -, -, -, h⟩ := sample_next h
    · exact .failed k
    · obtain ⟨-, rfl⟩ | ⟨-, rfl⟩ := handleIdle_next h
      · exact .stayed
      · exact .wrote _ s.draws
  | sampleStartSymbol q =>
    obtain ⟨k, rfl, -⟩ | ⟨-, -, -, -, -, h⟩ := sample_next h
    · exact .failed k
    · obtain ⟨k, rfl, -⟩ | rfl | ⟨-, rfl⟩ := handleStartSymbol_next h
      · exact .failed k
      · exact .stayed
      · exact .wrote _ s.draws
  | sampleAddr q =>
    obtain ⟨k, rfl, -⟩ | ⟨-, -, -, -, -, h⟩ := sample_next h
    · exact .failed k
    · exact primary h
  | sampleAddrInv q =>
    obtain ⟨k, rfl, -⟩ | ⟨-, -, -, -, -, h⟩ := sample_next h
    · exact .failed k
    · exact inverse h
  | sampleCmd q =>
    obtain ⟨k, rfl, -⟩ | ⟨-, -, -, -, -, h⟩ := sample_next h
    · exact .failed k
    · exact primary h
  | sampleCmdInv q =>
    obtain ⟨k, rfl, -⟩ | ⟨-, -, -, -, -, h⟩ := sample_next h
    · exact .failed k
    · exact inverse h
  | sampleStopSymbol q =>
    obtain ⟨k, rfl, -⟩ | ⟨-, -, -, -, -, h⟩ := sample_next h
    · exact .failed k
    · obtain ⟨k, rfl, -⟩ | rfl | ⟨-, rfl⟩ := handleStopSymbol_next h
      · exact .failed k
      · exact .stayed
      · exact .wrote _ s.draws
  | sampleFinished q =>
    obtain ⟨k, rfl, -⟩ | ⟨-, -, -, -, -, h⟩ := sample_next h
    · exact .failed k
    · obtain rfl | rfl := finishedPolicy_next h
      · exact .stayed
      · exact .failed _
  | sampleInvalidStage q =>
    obtain ⟨k, rfl, -⟩ | ⟨-, -, -, -, -, h⟩ := sample_next h
    · exact .failed k
    · obtain rfl := raise_next.mp h
      exact .failed _

/-- A step with a pending request that decodes is that request, performed. -/
theorem step_ok {s : State} {r : Request} {rest : List Request} {i : Instr} (hr : s.requests = r :: rest)
    (hd : decode s.regs.stage r.word = .ok i) : step s = exec i (present r rest s) := by
  simp only [step, fetch_cons hr, hd]

/-- A step with a pending request that does not decode is refused. -/
theorem step_error {s : State} {r : Request} {rest : List Request} {op : OpCode} (hr : s.requests = r :: rest)
    (hd : decode s.regs.stage r.word = .error (.reservedOp op)) : step s = .refused (.reservedOp op) := by
  simp only [step, fetch_cons hr, hd]

/-- If a step answers a next state, there was no request and nothing changed, or a request decoded and was performed. -/
theorem step_next {s t : State} (h : step s = .next t) :
    (s.requests = [] ∧ t = s) ∨
    ∃ r rest i, s.requests = r :: rest ∧ decode s.regs.stage r.word = .ok i ∧ exec i (present r rest s) = .next t := by
  cases hr : s.requests with
  | nil =>
    simp only [step, fetch_nil hr] at h
    exact .inl ⟨rfl, (Host.Outcome.next.inj h).symm⟩
  | cons r rest =>
    right
    cases hd : decode s.regs.stage r.word with
    | ok i => exact ⟨r, rest, i, rfl, hd, (step_ok hr hd).symm.trans h⟩
    | error e =>
      cases e
      rw [step_error hr hd] at h
      cases h

end Sys2Proof.Machine
end

