-- ==== Sys2Proof/Tests/Slice0.lean ====
section
/-! SUPPORT. Small tests of one request each, with results from 95_test_vectors.md and the rules' own examples; the smoke
test of the well-formedness and admission checks; and, for each statement with hypotheses, a state and operands that meet
them, at the edges of each clause. -/

namespace Sys2Proof.Tests

open Sys2Proof.Machine Sys2Proof.Safety Sys2Proof.Claims

/-! ## Small states -/

/-- A canonical SAMPLE. -/
def args (l : Level) (t : Timestamp) : SampleArgs := ⟨l, t, true, true, true⟩

/-- DecoderState of a test vector, in the vectors' order. -/
def dec (stage : StageCode) (idx : Count) (start : Timestamp) (addr cmd invAddr invCmd : FieldWord) : DecoderState :=
  ⟨stage, idx, start, addr, cmd, invAddr, invCmd⟩

/-- A state with the scenario's configuration (CFG8). -/
def cfg8 (d : DecoderState) : State :=
  { State.reset with regs := d, protocol := scenarioProtocol, platform := scenarioPlatform }

/-- The same with 8-bit fields and these verify flags. -/
def cfg88 (flags : BitVec 8) (d : DecoderState) : State :=
  { cfg8 d with
    protocol := { scenarioProtocol with addressBits := 8, commandBits := 8, verifyFlags := flags } }

/-- The default parameters with another `W_FIELD`. -/
def withWField (w : Nat) (h : 1 ≤ w ∧ w ≤ 255) : Params :=
  { Params.defaults with
    widths := { Widths.defaults with wField := w, field_ok := h, cnt_ok := ⟨h.2, by decide⟩ } }

/-- The default parameters with the narrowest durations, counts and stages that these carry. -/
def narrow (dur cnt : Nat) (hd : 1 ≤ dur ∧ dur ≤ 63) (hc : 1 ≤ 2 ^ cnt - 1 ∧ cnt ≤ 16) : Params :=
  { Params.defaults with
    widths := { wField := 1, wDur := dur, wCnt := cnt, wStage := 3, field_ok := by decide, dur_ok := hd, cnt_ok := hc,
                stage_ok := by decide } }

/-- The registers and the result after a request that answers a next state. -/
def after : Host.Outcome State Fault Refusal → Option (DecoderState × Option Result)
  | .next s => some (s.regs, s.response)
  | .fault _ => none
  | .refused _ => none

/-- The reason of a refusal. -/
def refusal : Host.Outcome State Fault Refusal → Option Refusal
  | .next _ => none
  | .fault _ => none
  | .refused r => some r

/-! ## Well-formedness and admission smoke tests -/

/-- Each stage selector refuses a row under a neighbouring stage value. -/
theorem smoke_wf_refuses :
    (Instr.sampleIdle (args .low 0)).wf 1 = false ∧ (Instr.sampleStartSymbol (args .low 0)).wf 0 = false ∧
    (Instr.sampleAddr (args .low 0)).wf 3 = false ∧ (Instr.sampleAddrInv (args .low 0)).wf 2 = false ∧
    (Instr.sampleCmd (args .low 0)).wf 5 = false ∧ (Instr.sampleCmdInv (args .low 0)).wf 4 = false ∧
    (Instr.sampleStopSymbol (args .low 0)).wf 7 = false ∧ (Instr.sampleFinished (args .low 0)).wf 6 = false ∧
    (Instr.sampleInvalidStage (args .low 0)).wf 7 = false := by decide

/-- Each presence bit is checked (R74). -/
theorem smoke_canonical_refuses :
    (SampleArgs.allPresent ⟨.high, 0, false, true, true⟩) = false ∧
    (SampleArgs.allPresent ⟨.high, 0, true, false, true⟩) = false ∧
    (SampleArgs.allPresent ⟨.high, 0, true, true, false⟩) = false ∧ (args .high 0).allPresent = true := by decide

/-- V-ADM: each of A1 to A7 refuses its configuration. -/
theorem smoke_admission_refuses :
    admits Params.defaults { scenarioProtocol with addressBits := 0 } scenarioPlatform = false ∧
    admits Params.defaults { scenarioProtocol with addressBits := 33 } scenarioPlatform = false ∧
    admits (withWField 8 (by decide)) scenarioProtocol scenarioPlatform = false ∧
    admits Params.defaults { scenarioProtocol with commandBits := 0 } scenarioPlatform = false ∧
    admits Params.defaults { scenarioProtocol with stopPulse := 0 } scenarioPlatform = false ∧
    admits Params.defaults { scenarioProtocol with zeroPeriod := 2249 } scenarioPlatform = false ∧
    admits Params.defaults { scenarioProtocol with stopPulse := 74 } scenarioPlatform = false ∧
    admits Params.defaults { scenarioProtocol with zeroPeriod := 712 } scenarioPlatform = false ∧
    admits Params.defaults { scenarioProtocol with onePeriod := 1274 } scenarioPlatform = false ∧
    admits Params.defaults { scenarioProtocol with startPeriod := 9150 } scenarioPlatform = false := by decide

/-- V-ADM: A8 and A9. -/
theorem smoke_admission_refuses_flags :
    admits Params.defaults { scenarioProtocol with verifyFlags := 4 } scenarioPlatform = false ∧
    admits { Params.defaults with inverseSupport := .rejectConfig }
      { scenarioProtocol with verifyFlags := 1 } scenarioPlatform = false ∧
    admits Params.defaults { scenarioProtocol with verifyFlags := 1 } scenarioPlatform = true := by decide

/-- V-ADM: the nearest admitted configurations. -/
theorem test_admission_accepts :
    admits Params.defaults { scenarioProtocol with addressBits := 1 } scenarioPlatform = true ∧
    admits Params.defaults { scenarioProtocol with addressBits := 32 } scenarioPlatform = true ∧
    admits (withWField 255 (by decide)) { scenarioProtocol with addressBits := 255 } scenarioPlatform = true ∧
    admits Params.defaults { scenarioProtocol with stopPulse := 75 } scenarioPlatform = true ∧
    admits Params.defaults { scenarioProtocol with zeroPeriod := 713 } scenarioPlatform = true ∧
    admits Params.defaults { scenarioProtocol with onePeriod := 1275 } scenarioPlatform = true ∧
    admits Params.defaults { scenarioProtocol with startPeriod := 9151 } scenarioPlatform = true := by decide

/-- R9, and the widths of R20, R31 and R33 at their values and at others. -/
theorem test_widths :
    (∀ w : Widths, w.wField ≤ 2 ^ w.wCnt - 1) ∧
    Reg.width Params.defaults .s0 = 8 ∧ Reg.width Params.defaults .s1 = 8 ∧ Reg.width Params.defaults .s2 = 64 ∧
    Reg.width Params.defaults .s3 = 32 ∧ Reg.width (withWField 255 (by decide)) .s6 = 255 ∧
    ConfigReg.width Params.defaults .p0 = 8 ∧ ConfigReg.width Params.defaults .p2 = 32 ∧
    ConfigReg.width Params.defaults .q0 = 32 ∧ ConfigReg.width (narrow 14 1 (by decide) (by decide)) .p0 = 1 :=
  ⟨fun w => w.cnt_ok.1, by decide⟩

/-- D2: a configuration beyond the widths is not admitted. -/
theorem test_widths_admit :
    admits (narrow 14 1 (by decide) (by decide)) { scenarioProtocol with addressBits := 1, commandBits := 1 }
      scenarioPlatform = true ∧
    admits (narrow 13 1 (by decide) (by decide)) { scenarioProtocol with addressBits := 1, commandBits := 1 }
      scenarioPlatform = false ∧
    admits Params.defaults { scenarioProtocol with onePeriod := 0x100000000 } scenarioPlatform = false := by decide

/-! ## Decoding: words written out from R70, one for each constructor -/

theorem test_decode_init : decode 3 0x100000000000000000 = .ok .init := by decide
theorem test_decode_init_ignores : decode 3 0x1FFFFFFFFFFFFFFFFF = .ok .init := by decide
theorem test_decode_sampleIdle : decode 0 0x0F0000000000000064 = .ok (.sampleIdle (args .high 100)) := by decide
theorem test_decode_sampleStartSymbol :
    decode 1 0x0E0000000000002328 = .ok (.sampleStartSymbol (args .low 9000)) := by decide
theorem test_decode_sampleAddr : decode 2 0x0F0000000000003D85 = .ok (.sampleAddr (args .high 15749)) := by decide
theorem test_decode_sampleAddrInv :
    decode 3 0x0E0000000000007D36 = .ok (.sampleAddrInv (args .low 32054)) := by decide
theorem test_decode_sampleCmd : decode 4 0x0F000000000000A6ED = .ok (.sampleCmd (args .high 42733)) := by decide
theorem test_decode_sampleCmdInv :
    decode 5 0x0E000000000000E239 = .ok (.sampleCmdInv (args .low 57913)) := by decide
theorem test_decode_sampleStopSymbol :
    decode 6 0x0E00000000000109BE = .ok (.sampleStopSymbol (args .low 68030)) := by decide
theorem test_decode_sampleFinished :
    decode 7 0x0AFFFFFFFFFFFFFFFF = .ok (.sampleFinished ⟨.low, 0xFFFFFFFFFFFFFFFF, true, false, true⟩) := by decide
theorem test_decode_sampleInvalidStage :
    decode 8 0x040000000000000005 = .ok (.sampleInvalidStage ⟨.low, 5, false, true, false⟩) ∧
    decode 255 0x080000000000000005 = .ok (.sampleInvalidStage ⟨.low, 5, false, false, true⟩) := by decide
theorem test_decode_reserved :
    decode 0 0x200000000000000000 = .error (.reservedOp 2) ∧ decode 0 0xF00000000000000000 = .error (.reservedOp 15) := by
  decide
theorem test_encode_words :
    encode .init = 0x100000000000000000 ∧ encode (.sampleAddr (args .high 15749)) = 0x0F0000000000003D85 ∧
    encode (.sampleStopSymbol (args .low 68030)) = 0x0E00000000000109BE := by decide

/-! ## One request each -/

/-- V-INIT, from an illegal stage value. -/
theorem test_init : after (exec .init (cfg8 (dec 200 3 777 0xFF 5 0 0))) = some (dec 0 0 0 0 0 0 0, some .ok) := by decide

/-- V-IDLE. -/
theorem test_idle_low : after (exec (.sampleIdle (args .low 50)) (cfg8 (dec 0 0 0 0 0 0 0))) =
    some (dec 0 0 0 0 0 0 0, some .ok) := by decide
theorem test_idle_high : after (exec (.sampleIdle (args .high 0xFFFFFFFFFFFFFFFF)) (cfg8 (dec 0 0 0 0 0 0 0))) =
    some (dec 1 0 0xFFFFFFFFFFFFFFFF 0 0 0 0, some .ok) := by decide

/-- V-START: completion at the first microsecond of the band; a low sample past it. -/
theorem test_start_completes : after (exec (.sampleStartSymbol (args .high 14425)) (cfg8 (dec 1 0 1000 0 0 0 0))) =
    some (dec 2 0 14425 0 0 0 0, some .ok) := by decide
theorem test_start_too_long : after (exec (.sampleStartSymbol (args .low 14576)) (cfg8 (dec 1 0 1000 0 0 0 0))) =
    some (dec 1 0 1000 0 0 0 0, some (.error .symbolPeriodTooLong)) := by decide

/-- V-FIELD: the last address bit; a timestamp that wraps. -/
theorem test_addr_ends : after (exec (.sampleAddr (args .high 2349)) (cfg88 3 (dec 2 7 100 0x7F 0 0 0))) =
    some (dec 3 0 2349 0xFF 0 0 0, some .ok) := by decide
theorem test_addr_wraps :
    after (exec (.sampleAddr (args .high 1249)) (cfg8 (dec 2 0 18446744073709550616 0 0 0 0))) =
      some (dec 2 1 1249 1 0 0 0, some .ok) := by decide

/-- V-FIELD: an inverse address that is and that is not the complement. -/
theorem test_addrInv_matches : after (exec (.sampleAddrInv (args .high 1224)) (cfg88 3 (dec 3 7 100 0xFF 0 0 0))) =
    some (dec 4 0 1224 0xFF 0 0 0, some .ok) := by decide
theorem test_addrInv_mismatch : after (exec (.sampleAddrInv (args .high 2349)) (cfg88 3 (dec 3 7 100 0xFF 0 0 0))) =
    some (dec 3 7 100 0xFF 0 0 0, some (.error .inverseMismatch)) := by decide

/-- V-FIELD: the last command bit, and the stage after it by `POST_CMD_SELECT`, with the address flag only. -/
theorem test_cmd_ends : after (exec (.sampleCmd (args .high 2349)) (cfg88 1 (dec 4 7 100 0 0x6F 0 0))) =
    some (dec 6 0 2349 0 0xEF 0 0, some .ok) := by decide
theorem test_cmd_ends_addrFlag :
    after (exec (.sampleCmd (args .high 2349)) { cfg88 1 (dec 4 7 100 0 0x6F 0 0) with
      params := { Params.defaults with postCmdSelect := .addrFlag } }) =
      some (dec 5 0 2349 0 0xEF 0 0, some .ok) := by decide

/-- V-FIELD: the last bit of an inverse command; R171's example. -/
theorem test_cmdInv_matches :
    after (exec (.sampleCmdInv (args .high 1224)) (cfg88 3 (dec 5 7 100 0xFF 0xEF 0 0x10))) =
      some (dec 6 0 1224 0xFF 0xEF 0 0x10, some .ok) := by decide
theorem test_cmdInv_mismatch :
    after (exec (.sampleCmdInv (args .high 2349)) (cfg88 3 (dec 5 7 100 0xFF 0xEF 0 0x10))) =
      some (dec 5 7 100 0xFF 0xEF 0 0x10, some (.error .inverseMismatch)) := by decide

/-- V-STOP: the last microsecond of the band, and one past it. -/
theorem test_stop_finishes : after (exec (.sampleStopSymbol (args .low 1637)) (cfg8 (dec 6 0 1000 0xFF 0x10EF 0 0))) =
    some (dec 7 0 1000 0xFF 0x10EF 0 0, some .ok) := by decide
theorem test_stop_late : after (exec (.sampleStopSymbol (args .low 1638)) (cfg8 (dec 6 0 1000 0xFF 0x10EF 0 0))) =
    some (dec 6 0 1000 0xFF 0x10EF 0 0, some (.error .symbolPeriodTooLong)) := by decide

/-- V-DISP: Finished under both policies. -/
theorem test_finished_absorbs : after (exec (.sampleFinished (args .high 5)) (cfg8 (dec 7 0 1000 0xFF 0x10EF 0 0))) =
    some (dec 7 0 1000 0xFF 0x10EF 0 0, some .ok) := by decide
theorem test_finished_fails :
    after (exec (.sampleFinished (args .high 5)) { cfg8 (dec 7 0 1000 0xFF 0x10EF 0 0) with
      params := { Params.defaults with finishedPolicy := .invalidStage } }) =
      some (dec 7 0 1000 0xFF 0x10EF 0 0, some (.error .invalidStage)) := by decide

/-- V-DISP: an illegal stage value; a null check precedes it. -/
theorem test_invalidStage : after (exec (.sampleInvalidStage (args .high 5)) (cfg8 (dec 8 0 0 0 0 0 0))) =
    some (dec 8 0 0 0 0 0 0, some (.error .invalidStage)) := by decide
theorem test_null_precedes_stage :
    after (exec (.sampleInvalidStage ⟨.high, 5, true, false, true⟩) (cfg8 (dec 9 0 0 0 0 0 0))) =
      some (dec 9 0 0 0 0 0 0, some (.error .nullProtocol)) := by decide

/-- V-CD with the periods swapped: `BIT_ASSIGN`. -/
theorem test_bit_assign :
    classifyData .byPeriod { scenarioProtocol with zeroPeriod := 2249, onePeriod := 1124 } scenarioPlatform 1124 .high =
      .completes true ∧
    classifyData .upstreamFixed { scenarioProtocol with zeroPeriod := 2249, onePeriod := 1124 } scenarioPlatform 2249 .high =
      .completes true := by decide

/-- The step from reset on a word of P1, and on a reserved `op`. -/
theorem test_step_first : after (step (State.reset.withFetchWord 72 0x0F0000000000000064)) =
    some (dec 1 0 100 0 0 0 0, some .ok) := by decide
theorem test_step_reserved :
    refusal (step (State.reset.withFetchWord 72 0x200000000000000000)) = some (.reservedOp 2) := by decide
theorem test_step_not_admitted :
    refusal (step { State.reset with requests := [⟨0x0F0000000000000064, ProtocolConfig.undriven, ⟨0⟩⟩] }) =
      some .configNotAdmitted := by decide

/-- R79: the words of its examples. -/
theorem test_assembler :
    assembleLine ['I', 'N', 'I', 'T'] = some (some 0x100000000000000000) ∧
    assembleLine ['S', 'A', 'M', 'P', 'L', 'E', ' ', 'H', ',', ' ', '1', '0', '0', ' ', ';', 'x'] =
      some (some 0x0F0000000000000064) ∧
    assembleLine ['S', 'A', 'M', 'P', 'L', 'E', ' ', '0', ',', '0', 'x', '1', 'f', ',', ' ', '!', 'p', 'l', 'a', 't'] =
      some (some 0x06000000000000001F) ∧
    assembleLine [';'] = some none ∧ assembleLine ['I', 'N'] = none := by decide

/-- R80: a frame of one address bit and one command bit. -/
theorem test_frame_words :
    pseudoFrame scenarioProtocol 0 [true, false] =
      [0x0F0000000000000000, 0x0E0000000000002328, 0x0F00000000000034BC, 0x0E00000000000036EE, 0x0F0000000000003D85,
       0x0E0000000000003FB7, 0x0F00000000000041E9, 0x0E000000000000441B] := by decide

/-- R249 at its corner (log entry 17): with T = the data mark = g - 1 = 10, samples at 199 and 210 both find the line low around
the data mark that starts at 200, both are Ok, and the next sample is past the start symbol's last band (R133, R137). -/
theorem test_sampling_corner :
    let p := { scenarioProtocol with startPulse := 100, startPeriod := 200, dataBitPulse := 10, zeroPeriod := 40, onePeriod := 80 }
    let pl : PlatformConfig := ⟨10⟩
    let s := { cfg8 (dec 1 0 1 0 0 0 0) with protocol := p, platform := pl }
    admits Params.defaults p pl = true ∧ idealLine p 0 [true, false] 199 = .low ∧ idealLine p 0 [true, false] 200 = .high ∧
    idealLine p 0 [true, false] 209 = .high ∧ idealLine p 0 [true, false] 210 = .low ∧
    after (exec (.sampleStartSymbol (args .low 210)) s) = some (s.regs, some .ok) ∧
    after (exec (.sampleStartSymbol (args .low 221)) s) = some (s.regs, some (.error .symbolPeriodTooLong)) := by decide

/-- R161 in `W_FIELD` bits: the last of 40 bits is kept by a 40-bit register, and a 4-bit register has no bit 7. -/
theorem test_field_width :
    accumulated 40 .addr true (dec 2 39 0 5 0 0 0) = 0x8000000005 ∧ accumulated 4 .addr true (dec 2 7 0 5 0 0 0) = 5 := by
  decide

/-! ## Witnesses -/

/-- A state at Idle, ready for any SAMPLE. -/
abbrev idle0 : State := cfg8 (dec 0 0 0 0 0 0 0)

theorem witness_PowerOnResetEqualsInit :
    exec .init idle0 = .next { idle0 with response := some .ok } := rfl

theorem witness_InitZeroesEveryRegister : (0x1FF000000000000000 : RequestWord).toNat / 2 ^ 68 = 1 := by decide

theorem witness_InitWordIgnoresLowBits : 2 ^ 68 - 1 < 2 ^ 68 := by decide

theorem witness_OpFieldSelectsTheOperation :
    (0x0FFFFFFFFFFFFFFFFF : RequestWord).toNat / 2 ^ 68 = 0 ∧ (0x100000000000000000 : RequestWord).toNat / 2 ^ 68 = 1 ∧
    2 ≤ (0x200000000000000000 : RequestWord).toNat / 2 ^ 68 ∧ 2 ≤ (0xFFFFFFFFFFFFFFFFFF : RequestWord).toNat / 2 ^ 68 ∧
    (State.reset.withFetchWord 72 0x200000000000000000).requests = [scenarioRequest 0x200000000000000000] := by decide

theorem witness_SampleOperandsComeFromTheirBits :
    decode 2 0x0F0000000000003D85 = .ok (.sampleAddr (args .high 15749)) ∧
    (Instr.sampleAddr (args .high 15749)).args? = some (args .high 15749) := by decide

theorem witness_StageRegisterSelectsTheRow :
    (0x0F0000000000000000 : RequestWord).toNat / 2 ^ 68 = 0 ∧ (7 : StageCode).toNat = 7 ∧ 8 ≤ (8 : StageCode).toNat ∧
    8 ≤ (255 : StageCode).toNat := by decide

theorem witness_DecodeOfEncodeIsTheRequest :
    (Instr.sampleInvalidStage (args .high 5)).wf 8 = true ∧ (Instr.sampleFinished (args .high 5)).wf 7 = true ∧
    Instr.init.wf 255 = true := by decide

theorem witness_EncodeOfDecodeIsTheWord :
    decode 2 0x0F0000000000003D85 = .ok (.sampleAddr (args .high 15749)) ∧
    (Instr.sampleAddr (args .high 15749)).args?.isSome = true ∧ decode 0 0x1F0000000000000000 = .ok .init := by decide

theorem witness_StepPerformsTheDecodedRequest :
    (State.reset.withFetchWord 72 0x0F0000000000000064).requests = [scenarioRequest 0x0F0000000000000064] ∧
    decode State.reset.regs.stage 0x0F0000000000000064 = .ok (.sampleIdle (args .high 100)) := by decide

theorem witness_BlockHoldsItsStateBetweenRequests : State.reset.requests = [] := rfl

theorem witness_EveryRequestHasOneOfThreeOutcomes :
    (State.reset.withFetchWord 72 0x0F0000000000000064).requests = [scenarioRequest 0x0F0000000000000064] := by decide

theorem witness_NullChecksComeFirst :
    (Instr.sampleAddr ⟨.high, 5, false, false, false⟩).args? = some ⟨.high, 5, false, false, false⟩ ∧
    (Instr.sampleAddr ⟨.high, 5, true, false, false⟩).args? = some ⟨.high, 5, true, false, false⟩ ∧
    (Instr.sampleAddr ⟨.high, 5, true, true, false⟩).args? = some ⟨.high, 5, true, true, false⟩ := by decide

theorem witness_AdmissionIsTheNineChecks :
    (Instr.sampleAddr (args .high 5)).args? = some (args .high 5) ∧ (args .high 5).allPresent = true ∧
    NineChecks idle0.params idle0.protocol idle0.platform ∧
    ¬ NineChecks Params.defaults { scenarioProtocol with startPeriod := 9150 } scenarioPlatform := by decide

theorem witness_IllegalStageFails :
    Ready (args .high 5) (cfg8 (dec 8 0 0 0 0 0 0)) ∧ 7 < (8 : StageCode).toNat ∧
    Ready (args .high 5) (cfg8 (dec 7 0 0 0 0 0 0)) ∧ (7 : StageCode).toNat = 7 ∧
    (cfg8 (dec 7 0 0 0 0 0 0)).params.finishedPolicy = .absorb := by decide

theorem witness_FinishedIsDecidedByItsPolicy :
    Ready (args .high 5) (cfg8 (dec 7 0 0 0 0 0 0)) ∧ (cfg8 (dec 7 0 0 0 0 0 0)).regs.stage = 7 ∧
    (cfg8 (dec 7 0 0 0 0 0 0)).params.finishedPolicy = .absorb ∧
    Ready (args .high 5) { cfg8 (dec 7 0 0 0 0 0 0) with
      params := { Params.defaults with finishedPolicy := .invalidStage } } := by decide

/-- The edges of the seven bands under CFG8 (V-CD). -/
theorem witness_DataClassifierHasSevenBands :
    let c := classifyData .byPeriod scenarioProtocol scenarioPlatform
    c 486 .low = .errs .pulseTooShort ∧ c 487 .low = .continues ∧ c 637 .high = .continues ∧
    c 638 .high = .errs .unexpectedLineHigh ∧ c 1049 .high = .completes false ∧ c 1199 .high = .completes false ∧
    c 1200 .high = .errs .unexpectedLineHigh ∧ c 2174 .high = .completes true ∧ c 2324 .high = .completes true ∧
    c 2325 .low = .errs .symbolPeriodTooLong := by decide

theorem witness_IdleStartsAFrameOnTheFirstHigh :
    Ready (args .low 0) idle0 ∧ Ready (args .high 0) idle0 ∧ idle0.regs.stage = 0 := by decide

/-- Each clause at the edges of its band (V-CS). -/
theorem witness_StartSymbolFollowsItsBands :
    let s := cfg8 (dec 1 0 1000 0 0 0 0)
    let e := fun t : Timestamp => (t - s.regs.symbolStart).toNat
    Ready (args .low 9924) s ∧ s.regs.stage = 1 ∧
    e 9924 + 75 < 9000 ∧ 9000 ≤ e 9925 + 75 ∧ e 10075 ≤ 9000 + 75 ∧ 9000 + 75 < e 10076 ∧ e 14424 + 75 < 13500 ∧
    13500 ≤ e 14425 + 75 ∧ e 14575 ≤ 13500 + 75 ∧ 13500 + 75 < e 14576 := by decide

/-- Each clause at the edges of its band (V-CT). -/
theorem witness_StopSymbolFollowsItsBand :
    let s := cfg8 (dec 6 0 1000 0 0 0 0)
    let e := fun t : Timestamp => (t - s.regs.symbolStart).toNat
    Ready (args .low 1486) s ∧ s.regs.stage = 6 ∧ s.params.stopLateLow = .symbolPeriodTooLong ∧
    e 1486 + 75 < 562 ∧ 562 ≤ e 1487 + 75 ∧ e 1637 ≤ 562 + 75 ∧ 562 + 75 < e 1638 ∧
    Ready (args .low 1638) { s with params := { Params.defaults with stopLateLow := .finish } } := by decide

theorem witness_AddrStageAccumulatesTheAddress :
    let s := cfg88 3 (dec 2 7 100 0x7F 0 0 0)
    Ready (args .high 2349) s ∧ s.regs.stage = 2 ∧ dataOutcome (args .low 586) s = .errs .pulseTooShort ∧
    dataOutcome (args .low 2349) s = .continues ∧ dataOutcome (args .high 2349) s = .completes true ∧
    s.regs.bitIdx.toNat + 1 = s.protocol.addressBits.toNat ∧
    dataOutcome (args .high 1224) (cfg8 (dec 2 5 100 0x1F 0 0 0)) = .completes false ∧
    ¬ (5 : Count).toNat + 1 = scenarioProtocol.addressBits.toNat := by decide

theorem witness_AddrInvStageChecksTheAddress :
    let s := cfg88 3 (dec 3 7 100 0xFF 0 0 0)
    Ready (args .high 1224) s ∧ s.regs.stage = 3 ∧ dataOutcome (args .low 586) s = .errs .pulseTooShort ∧
    dataOutcome (args .low 1224) s = .continues ∧
    s.regs.bitIdx.toNat + 1 = s.protocol.addressBits.toNat ∧
    dataOutcome (args .high 1224) s = .completes false ∧
    withBit s.params s.regs.invAddr false s.regs.bitIdx = ~~~s.regs.addr &&& BitVec.ofNat 255 (2 ^ s.protocol.addressBits.toNat - 1) ∧
    dataOutcome (args .high 2349) s = .completes true ∧
    withBit s.params s.regs.invAddr true s.regs.bitIdx ≠ ~~~s.regs.addr &&& BitVec.ofNat 255 (2 ^ s.protocol.addressBits.toNat - 1) ∧
    dataOutcome (args .high 2349) (cfg88 3 (dec 3 3 100 0xFF 0 0 0)) = .completes true ∧
    ¬ (3 : Count).toNat + 1 = s.protocol.addressBits.toNat := by decide

theorem witness_CmdStageAccumulatesTheCommand :
    let s := cfg88 1 (dec 4 7 100 0 0x6F 0 0)
    Ready (args .high 2349) s ∧ s.regs.stage = 4 ∧ dataOutcome (args .low 586) s = .errs .pulseTooShort ∧
    dataOutcome (args .low 2349) s = .continues ∧ dataOutcome (args .high 2349) s = .completes true ∧
    s.regs.bitIdx.toNat + 1 = s.protocol.commandBits.toNat ∧
    dataOutcome (args .high 1224) (cfg88 1 (dec 4 0 100 0 0 0 0)) = .completes false ∧
    ¬ (0 : Count).toNat + 1 = s.protocol.commandBits.toNat := by decide

theorem witness_CmdInvStageChecksTheCommand :
    let s := cfg88 3 (dec 5 7 100 0xFF 0xEF 0 0x10)
    Ready (args .high 1224) s ∧ s.regs.stage = 5 ∧ dataOutcome (args .low 586) s = .errs .pulseTooShort ∧
    dataOutcome (args .low 1224) s = .continues ∧
    s.regs.bitIdx.toNat + 1 = s.protocol.commandBits.toNat ∧
    dataOutcome (args .high 1224) s = .completes false ∧
    withBit s.params s.regs.invCmd false s.regs.bitIdx = ~~~s.regs.cmd &&& BitVec.ofNat 255 (2 ^ s.protocol.commandBits.toNat - 1) ∧
    dataOutcome (args .high 2349) s = .completes true ∧
    withBit s.params s.regs.invCmd true s.regs.bitIdx ≠ ~~~s.regs.cmd &&& BitVec.ofNat 255 (2 ^ s.protocol.commandBits.toNat - 1) ∧
    dataOutcome (args .high 2349) (cfg88 3 (dec 5 3 100 0xFF 0xEF 0 0)) = .completes true ∧
    ¬ (3 : Count).toNat + 1 = s.protocol.commandBits.toNat := by decide

/-- R168's example: `~0xFF` is matched by a 0 bit and not by a 1 bit; an incomplete field is not checked. -/
theorem witness_InverseIsCheckedOnceAtTheFieldEnd :
    let s := cfg88 3 (dec 3 7 100 0xFF 0 0 0)
    inverseRow? s.regs (.sampleAddrInv (args .high 1224)) = some (.addrInv, 3, args .high 1224, 0xFF) ∧
    Ready (args .high 1224) s ∧ s.regs.stage = 3 ∧ dataOutcome (args .high 1224) s = .completes false ∧
    dataOutcome (args .high 2349) s = .completes true ∧ s.regs.bitIdx.toNat + 1 = (s.protocol.width .addrInv).toNat ∧
    (withBit s.params (s.regs.field .addrInv) false s.regs.bitIdx).toNat = 2 ^ 8 - 1 - (0xFF : FieldWord).toNat % 2 ^ 8 ∧
    (withBit s.params (s.regs.field .addrInv) true s.regs.bitIdx).toNat ≠ 2 ^ 8 - 1 - (0xFF : FieldWord).toNat % 2 ^ 8 ∧
    (3 : Count).toNat + 1 ≠ (s.protocol.width .addrInv).toNat ∧
    inverseRow? s.regs (.sampleCmdInv (args .high 1224)) = some (.cmdInv, 5, args .high 1224, 0) := by decide

theorem witness_AcceptedBitAddsItsPowerOfTwo :
    let s := cfg88 3 (dec 2 7 100 0x7F 0 0 0)
    fieldRow? (.sampleAddr (args .high 2349)) = some (.addr, 2, args .high 2349) ∧ Ready (args .high 2349) s ∧
    s.regs.stage = 2 ∧ Reachable s.params s.protocol s.regs ∧ dataOutcome (args .high 2349) s = .completes true ∧
    after (exec (.sampleAddr (args .high 2349)) s) = some (dec 3 0 2349 0xFF 0 0 0, some .ok) :=
  ⟨by decide, by decide, by decide, by decide, by decide, by decide⟩

theorem witness_ErrorsArePrecise :
    exec (.sampleInvalidStage (args .high 5)) (cfg8 (dec 8 0 0 0 0 0 0)) =
      .next (failedWith .invalidStage (cfg8 (dec 8 0 0 0 0 0 0))) := rfl

theorem witness_ErrSeenIsClearedOnlyByInit :
    exec .init { idle0 with errSeen := true } = .next { idle0 with response := some .ok } ∧
    exec (.sampleIdle (args .low 5)) { idle0 with errSeen := true } =
      .next { idle0 with errSeen := true, response := some .ok } ∧
    exec (.sampleIdle ⟨.low, 5, false, true, true⟩) idle0 = .next (failedWith .nullState idle0) := ⟨rfl, rfl, rfl⟩

theorem witness_SampleAfterAnErrorFollowsTheNormalRules :
    exec (.sampleIdle (args .low 5)) idle0 = .next { idle0 with response := some .ok } ∧
    exec (.sampleIdle (args .low 5)) State.reset = .refused .configNotAdmitted := ⟨rfl, rfl⟩

/-- A request that writes registers: the frames have something to frame. -/
theorem witness_EachRegisterHasItsWriters :
    exec (.sampleIdle (args .high 60)) idle0 =
      .next { idle0 with regs := dec 1 0 60 0 0 0 0, response := some .ok } := rfl

theorem witness_ConfigurationIsReadOnly :
    exec (.sampleIdle (args .high 60)) idle0 =
      .next { idle0 with regs := dec 1 0 60 0 0 0 0, response := some .ok } := rfl

theorem witness_StageMovesOneStepAlongTheChain :
    exec (.sampleIdle (args .high 60)) idle0 =
      .next { idle0 with regs := dec 1 0 60 0 0 0 0, response := some .ok } := rfl

theorem witness_NoHiddenStateIsRead :
    let u := { idle0 with errSeen := true, response := some .ok, requests := [scenarioRequest 0] }
    idle0.regs = u.regs ∧ idle0.protocol = u.protocol ∧ idle0.platform = u.platform ∧ idle0.params = u.params ∧
    idle0.draws = u.draws ∧ idle0 ≠ u := by decide

theorem witness_RejectedInversesAreUnreachable :
    let s := { cfg88 3 (dec 4 7 100 0 0x6F 0 0) with params := { Params.defaults with inverseSupport := .rejectConfig } }
    let u := { s with protocol := scenarioProtocol }
    s.params.inverseSupport = .rejectConfig ∧ (args .high 2349).allPresent = true ∧
    s.protocol.verifyFlags.toNat % 4 ≠ 0 ∧ u.params.inverseSupport = .rejectConfig ∧ u.regs.stage ≠ 3 ∧ u.regs.stage ≠ 5 ∧
    after (exec (.sampleCmd (args .low 2349)) u) = some (u.regs, some .ok) := by decide

theorem witness_DecreasingTimestampIsPastEveryBand :
    Ready (args .high 400) (cfg8 (dec 2 0 500 0 0 0 0)) ∧
    Ready (args .high 400) (cfg8 (dec 1 0 500 0 0 0 0)) ∧ Ready (args .low 400) (cfg88 3 (dec 3 0 500 0 0 0 0)) ∧
    Ready (args .low 400) (cfg8 (dec 4 0 500 0 0 0 0)) ∧ Ready (args .high 400) (cfg88 3 (dec 5 0 500 0 0 0 0)) ∧
    Ready (args .high 400) (cfg8 (dec 6 0 500 0 0 0 0)) ∧
    Ready (args .low 400) { cfg8 (dec 6 0 500 0 0 0 0) with params := { Params.defaults with stopLateLow := .finish } } ∧
    (400 : Timestamp).toNat < (500 : Timestamp).toNat ∧
    (500 : Timestamp).toNat ≤ (400 : Timestamp).toNat + (2 ^ 64 - 2 ^ (Params.defaults.widths.wDur + 1)) ∧
    (0 : Timestamp).toNat < (0xFFFFFFFE00000000 : Timestamp).toNat ∧
    (0xFFFFFFFE00000000 : Timestamp).toNat ≤ (0 : Timestamp).toNat + (2 ^ 64 - 2 ^ (Params.defaults.widths.wDur + 1)) := by decide

theorem witness_ParametersAgreeOnCanonicalConfigurations :
    exec (.sampleIdle (args .high 60)) idle0 =
      .next { idle0 with regs := dec 1 0 60 0 0 0 0, response := some .ok } ∧
    idle0.protocol.zeroPeriod.toNat < idle0.protocol.onePeriod.toNat ∧
    idle0.protocol.addrVerifyInverse = idle0.protocol.cmdVerifyInverse := ⟨rfl, by decide, rfl⟩

theorem witness_LateEdgesWithinToleranceStillDecode :
    admits Params.defaults scenarioProtocol scenarioPlatform = true ∧ Params.defaults.bitAssign = .byPeriod ∧
    75 ≤ scenarioPlatform.tolerance.toNat ∧ (dec 2 0 1075 0 0 0 0).symbolStart = 1000 + BitVec.ofNat 64 75 := by decide

theorem witness_EveryResponseHasItsCode :
    exec (.sampleInvalidStage (args .high 5)) (cfg8 (dec 8 0 0 0 0 0 0)) =
      .next (failedWith .invalidStage (cfg8 (dec 8 0 0 0 0 0 0))) := rfl

theorem witness_InstancesDoNotInteract :
    let s := State.reset.withFetchWord 72 0x0F0000000000000064
    let t := { idle0 with regs := dec 1 0 100 0 0 0 0, response := some .ok }
    fleetStep 1 [s, s] = .next [s, t] ∧ fleetStepTwo 0 1 [s, s] = .next [t, t] := ⟨rfl, rfl⟩

theorem witness_EveryStepKeepsTheStageLegal :
    (State.reset.withFetchWord 72 0x0F0000000000000064).regs.stage.toNat ≤ 7 ∧
    after (step (State.reset.withFetchWord 72 0x0F0000000000000064)) = some (dec 1 0 100 0 0 0 0, some .ok) := by decide

theorem witness_HostReadsWholeRegisters :
    RegistersFit (cfg8 (dec 7 0 0 0xFFFFFFFF 0 0 0)) ∧ hostRead (cfg8 (dec 7 0 0 0xFFFFFFFF 0 0 0)) .s3 = 0xFFFFFFFF#32 :=
  ⟨by decide, rfl⟩

/-- A 40-bit register whose last bit arrives. -/
theorem witness_EveryStepKeepsRegistersWithinTheirWidths :
    let p := { scenarioProtocol with addressBits := 40 }
    let s := { cfg8 (dec 2 39 100 1 0 0 0) with
      params := withWField 40 (by decide),
      requests := [⟨0x0F000000000000092D, p, scenarioPlatform⟩] }
    RegistersFit s ∧ after (step s) = some (dec 4 0 2349 0x8000000001 0 0 0, some .ok) := by decide

theorem witness_RegistersFitFromInit : exec .init idle0 = .next { idle0 with response := some .ok } := rfl

/-- The session invariant holds in the middle of a session with requests still to come, and the step goes on. -/
theorem witness_EveryStepKeepsTheSessionInvariant :
    let s := { cfg88 3 (dec 3 7 100 0xFF 0 0 0) with
      requests := [⟨0x0F00000000000004C8, (cfg88 3 DecoderState.zero).protocol, scenarioPlatform⟩] }
    SessionInv s.protocol s.platform s ∧ after (step s) = some (dec 4 0 1224 0xFF 0 0 0, some .ok) := by decide

theorem witness_SessionInvariantHoldsFromInit :
    (∀ r ∈ [scenarioRequest 0], r.protocol = scenarioProtocol ∧ r.platform = scenarioPlatform) ∧
    ConstantConfiguration scenarioProtocol scenarioPlatform { idle0 with requests := [scenarioRequest 0] } := by decide

theorem witness_ReachedStatesMeetTheInvariants :
    let s := State.reset.withFetchWord 72 0x0F0000000000000064
    let t := { s with response := some .ok }
    ConstantConfiguration scenarioProtocol scenarioPlatform s ∧ exec .init s = .next t ∧
    Sys2Proof.core.run 1 t = .next { idle0 with regs := dec 1 0 100 0 0 0 0, response := some .ok } :=
  ⟨by decide, rfl, rfl⟩

theorem witness_EveryStepKeepsUnverifiedInversesZero :
    let s := { cfg8 (dec 4 15 100 0xFF 0x10EF 0 0) with requests := [scenarioRequest 0x0F00000000000004C8] }
    UnverifiedInversesZero s.protocol s.platform s ∧ s.protocol.addrVerifyInverse = false ∧
    after (step s) = some (dec 6 0 1224 0xFF 0x10EF 0 0, some .ok) := by decide

/-- A frame of 1-bit fields with both inverses, matching. -/
theorem witness_MatchingFrameFinishesWithItsFields :
    let p := { scenarioProtocol with addressBits := 1, commandBits := 1, verifyFlags := 3 }
    let s := { State.reset with
      requests := presented p scenarioPlatform (pseudoFrame p 7 (frameBits p [true] [false] [false] [true])) }
    FrameRules s.params p scenarioPlatform ∧ FieldLengths p [true] [false] [false] [true] ∧
    FrameAhead p scenarioPlatform 7 (frameBits p [true] [false] [false] [true]) s ∧
    SentInversesMatch p [true] [false] [false] [true] := by decide

/-- The same with a wrong inverse command. -/
theorem witness_MismatchingFrameFails :
    let p := { scenarioProtocol with addressBits := 1, commandBits := 1, verifyFlags := 3 }
    let s := { State.reset with
      requests := presented p scenarioPlatform (pseudoFrame p 7 (frameBits p [true] [false] [false] [false])) }
    FrameRules s.params p scenarioPlatform ∧ FieldLengths p [true] [false] [false] [false] ∧
    FrameAhead p scenarioPlatform 7 (frameBits p [true] [false] [false] [false]) s ∧
    ¬ SentInversesMatch p [true] [false] [false] [false] := by decide

/-- An ideal line with marks of 2 microseconds, sampled every 2 from before its start, with T = 1. -/
theorem witness_SampledLineFinishesWithItsFields :
    let p := { scenarioProtocol with addressBits := 1, commandBits := 1, startPulse := 2, startPeriod := 5, stopPulse := 2,
                                     dataBitPulse := 2, zeroPeriod := 5, onePeriod := 8 }
    let bits := frameBits p [false] [true] [false] [true]
    let s := { State.reset with
      requests := presented p ⟨1⟩ (sampleLine p 1 bits ([0, 2, 4, 6, 8, 10, 12, 14, 16] ++ [18])) }
    FrameRules s.params p ⟨1⟩ ∧ FieldLengths p [false] [true] [false] [true] ∧
    SentInversesMatch p [false] [true] [false] [true] ∧ 2 ≤ (1 : Duration).toNat + 1 ∧
    FrameSampled 2 1 (frameEnd p 1 bits) [0, 2, 4, 6, 8, 10, 12, 14, 16] 18 ∧
    MarksSeen (frameMarks p 1 bits) [0, 2, 4, 6, 8, 10, 12, 14, 16] ∧
    s.regs = DecoderState.zero ∧ s.errSeen = false :=
  ⟨by decide, by decide, by decide, by decide, by decide, by decide, rfl, rfl⟩

/-- The same line: 2 = T + 1, and no mark is as short as T. -/
theorem witness_EveryMarkIsSeen :
    let p := { scenarioProtocol with addressBits := 1, commandBits := 1, startPulse := 2, startPeriod := 5, stopPulse := 2,
                                     dataBitPulse := 2, zeroPeriod := 5, onePeriod := 8 }
    admits Params.defaults p ⟨1⟩ = true ∧ 2 ≤ (1 : Duration).toNat + 1 ∧ frameEnd p 1 [false, false] = 18 ∧
    FrameSampled 2 1 18 [0, 2, 4, 6, 8, 10, 12, 14, 16] 18 ∧
    ¬ (2 = (1 : Duration).toNat + 1 ∧ (1 = p.startPulse ∨ 1 = p.dataBitPulse ∨ 1 = p.stopPulse)) := by decide

end Sys2Proof.Tests
end

section
/-! PROOF. The scope family: what a step can answer, and the widths of the registers at power-on and after INIT. -/

namespace Sys2Proof

/-! ## Widths and the request word as numbers (R70, R75) -/

/-- `W_STAGE` bits hold the stage codes (R75). -/
theorem Widths.stage_codes_fit (w : Widths) : 7 < 2 ^ w.wStage :=
  calc 7 < 2 ^ 3 := by decide
    _ ≤ 2 ^ w.wStage := Nat.pow_le_pow_right (by decide) w.stage_ok.1

/-- The operation code is what stands above the 68 low bits. -/
theorem opField_toNat (w : RequestWord) : (opField w).toNat = w.toNat / 2 ^ 68 := by
  rw [opField, BitVec.extractLsb'_toNat, Nat.shiftRight_eq_div_pow]
  omega

theorem opField_eq_sample_iff (w : RequestWord) : opField w = 0x0 ↔ w.toNat / 2 ^ 68 = 0 := by
  rw [← opField_toNat, ← BitVec.toNat_inj]; rfl

theorem opField_eq_init_iff (w : RequestWord) : opField w = 0x1 ↔ w.toNat / 2 ^ 68 = 1 := by
  rw [← opField_toNat, ← BitVec.toNat_inj]; rfl

/-- One bit of the request word, as a number. -/
theorem RequestWord.getLsbD_iff (w : RequestWord) (n : Nat) : w.getLsbD n = true ↔ w.toNat / 2 ^ n % 2 = 1 := by
  rw [← BitVec.testBit_toNat, Nat.testBit_eq_decide_div_mod_eq, decide_eq_true_eq]

theorem statePresent_iff (w : RequestWord) : (sampleArgsOf w).statePresent = true ↔ w.toNat / 2 ^ 65 % 2 = 1 :=
  RequestWord.getLsbD_iff w 65

theorem protoPresent_iff (w : RequestWord) : (sampleArgsOf w).protoPresent = true ↔ w.toNat / 2 ^ 66 % 2 = 1 :=
  RequestWord.getLsbD_iff w 66

theorem platPresent_iff (w : RequestWord) : (sampleArgsOf w).platPresent = true ↔ w.toNat / 2 ^ 67 % 2 = 1 :=
  RequestWord.getLsbD_iff w 67

theorem SampleArgs.allPresent_iff (q : SampleArgs) :
    q.allPresent = true ↔ q.statePresent = true ∧ q.protoPresent = true ∧ q.platPresent = true := by
  simp [SampleArgs.allPresent, and_assoc]

/-- The three presence bits stand side by side, so that all set is the number 7. -/
theorem allPresent_sampleArgsOf_iff (w : RequestWord) :
    (sampleArgsOf w).allPresent = true ↔ w.toNat / 2 ^ 65 % 8 = 7 := by
  rw [SampleArgs.allPresent_iff, statePresent_iff, protoPresent_iff, platPresent_iff]
  omega

end Sys2Proof

namespace Sys2Proof.Machine

open Sys2Proof.Safety Sys2Proof.Claims

/-! ## Admission in the spec's arithmetic (R107) -/

theorem valuesFit_iff (w : Widths) (p : ProtocolConfig) (pl : PlatformConfig) :
    valuesFit w p pl = true ↔ FitsItsFields w p pl := by
  simp only [valuesFit, Bool.and_eq_true, decide_eq_true_eq, and_assoc]

/-- A4 on numbers. -/
theorem periodsDiffer_iff (p : ProtocolConfig) :
    periodsDiffer p = true ↔ p.zeroPeriod.toNat ≠ p.onePeriod.toNat := by
  rw [periodsDiffer, decide_eq_true_eq, ne_eq, ne_eq, BitVec.toNat_inj]

/-- A6 on numbers. -/
theorem dataBandsOrdered_iff (p : ProtocolConfig) (pl : PlatformConfig) :
    dataBandsOrdered p pl = true ↔
      p.dataBitPulse.toNat + pl.tolerance.toNat < min p.zeroPeriod.toNat p.onePeriod.toNat - pl.tolerance.toNat ∧
      min p.zeroPeriod.toNat p.onePeriod.toNat + pl.tolerance.toNat <
        max p.zeroPeriod.toNat p.onePeriod.toNat - pl.tolerance.toNat := by
  simp only [dataBandsOrdered, hi, lo, shorter_toNat, longer_toNat, Bool.and_eq_true, decide_eq_true_eq]

/-- A7 on numbers. -/
theorem startBandsOrdered_iff (p : ProtocolConfig) (pl : PlatformConfig) :
    startBandsOrdered p pl = true ↔
      p.startPulse.toNat + pl.tolerance.toNat < p.startPeriod.toNat - pl.tolerance.toNat := by
  rw [startBandsOrdered, decide_eq_true_eq, hi, lo]

/-- A8 on numbers: the reserved bits are those from bit 2 up. -/
theorem flagsReservedZero_iff (p : ProtocolConfig) : flagsReservedZero p = true ↔ p.verifyFlags.toNat / 4 = 0 := by
  have hr : p.reservedFlags.toNat = p.verifyFlags.toNat / 4 := by
    rw [ProtocolConfig.reservedFlags, BitVec.extractLsb'_toNat, Nat.shiftRight_eq_div_pow]
    omega
  rw [flagsReservedZero, beq_iff_eq, ← hr, ← BitVec.toNat_inj]; rfl

/-- A9 on numbers: the verify flags are bits 0 and 1. -/
theorem inverseSupported_iff (a : InverseSupport) (p : ProtocolConfig) :
    inverseSupported a p = true ↔ (a = .rejectConfig → p.verifyFlags.toNat % 4 = 0) := by
  cases a with
  | implemented => simp [inverseSupported]
  | rejectConfig =>
    simp only [inverseSupported, ProtocolConfig.addrVerifyInverse, ProtocolConfig.cmdVerifyInverse,
      ← BitVec.testBit_toNat, Nat.testBit_eq_decide_div_mod_eq, Bool.and_eq_true, Bool.not_eq_true',
      decide_eq_false_iff_not, forall_const]
    omega

/-- Admission is the nine checks of R107, on values that fit their fields (D2). -/
theorem admits_iff (a : Params) (p : ProtocolConfig) (pl : PlatformConfig) :
    admits a p pl = true ↔ FitsItsFields a.widths p pl ∧ NineChecks a p pl := by
  simp only [admits, Bool.and_eq_true, valuesFit_iff, periodsDiffer_iff, dataBandsOrdered_iff, startBandsOrdered_iff,
    flagsReservedZero_iff, inverseSupported_iff, addrWidthOk, cmdWidthOk, durationsPositive, toleranceFits,
    decide_eq_true_eq, NineChecks, and_assoc]

/-! ## What a request answers (R7) -/

/-- An effect shows in the response: `Ok`, or an error and the registers are as before. -/
theorem Effect.response {s t : State} (h : Effect s t) :
    t.response = some .ok ∨ ∃ k, t.response = some (.error k) ∧ t.regs = s.regs := by
  cases h with
  | failed k => exact .inr ⟨k, rfl, rfl⟩
  | stayed => exact .inl rfl
  | wrote d n => exact .inl rfl
  | initialised => exact .inl rfl

/-- A SAMPLE at its own stage answers a next state, or every reference is present and admission fails. -/
theorem sample_next_or_notAdmitted {row : StageRow} {q : SampleArgs} {h : State → Host.Outcome State Fault Refusal}
    {s : State} (hr : rowOfStage s.regs.stage = row) (ht : ∃ t, h s = .next t) :
    (∃ t, sample row q h s = .next t) ∨
    (q.allPresent = true ∧ s.admitted = false ∧ sample row q h s = .refused .configNotAdmitted) := by
  obtain ⟨t, ht⟩ := ht
  cases ho : sample row q h s with
  | next u => exact .inl ⟨u, rfl⟩
  | fault f => cases f
  | refused e =>
    obtain ⟨hs, hp, hf, ⟨ha, rfl⟩ | ⟨-, hne, -⟩ | ⟨-, -, he⟩⟩ := sample_refused ho
    · exact .inr ⟨q.allPresent_iff.mpr ⟨hs, hp, hf⟩, ha, rfl⟩
    · exact absurd hr hne
    · rw [ht] at he; cases he

/-- The same of the row that the stage selects: each row's handler answers a next state. -/
theorem exec_row_next_or_notAdmitted (q : SampleArgs) (s : State) :
    (∃ t, exec ((rowOfStage s.regs.stage).instr q) s = .next t) ∨
    (q.allPresent = true ∧ s.admitted = false ∧
      exec ((rowOfStage s.regs.stage).instr q) s = .refused .configNotAdmitted) := by
  cases hr : rowOfStage s.regs.stage with
  | idle => exact sample_next_or_notAdmitted hr (handleIdle_total ..)
  | startSymbol => exact sample_next_or_notAdmitted hr (handleStartSymbol_total ..)
  | addr => exact sample_next_or_notAdmitted hr (primaryField_total ..)
  | addrInv => exact sample_next_or_notAdmitted hr (inverseField_total ..)
  | cmd => exact sample_next_or_notAdmitted hr (primaryField_total ..)
  | cmdInv => exact sample_next_or_notAdmitted hr (inverseField_total ..)
  | stopSymbol => exact sample_next_or_notAdmitted hr (handleStopSymbol_total ..)
  | finished => exact sample_next_or_notAdmitted hr (finishedPolicy_total s)
  | invalidStage => exact sample_next_or_notAdmitted hr ⟨_, rfl⟩

/-- A step that performs a pending request and answers a next state answers `Ok`, or an error with the registers as they
were: what the port takes is not a register. -/
theorem step_response {s t : State} {r : Request} {rest : List Request} (hr : s.requests = r :: rest)
    (h : step s = .next t) : t.response = some .ok ∨ ∃ k, t.response = some (.error k) ∧ t.regs = s.regs := by
  obtain ⟨hn, -⟩ | ⟨r', rest', i, -, -, he⟩ := step_next h
  · rw [hr] at hn; cases hn
  · exact (exec_effect he).response

/-- Settles O13, by the operation code: a word that spells SAMPLE or INIT is performed, and only a SAMPLE's admission check
can refuse it. -/
theorem everyRequestHasOneOfThreeOutcomes : Obligations.EveryRequestHasOneOfThreeOutcomes := by
  intro s r rest hr
  have answered {t : State} (h : step s = .next t) :
      (∃ t, step s = .next t ∧ t.response = some .ok) ∨
      (∃ t k, step s = .next t ∧ t.response = some (.error k) ∧ t.regs = s.regs) :=
    (step_response hr h).imp (⟨t, h, ·⟩) fun ⟨k, hk⟩ => ⟨t, k, h, hk⟩
  obtain ⟨h0, hd⟩ | ⟨-, hd⟩ | ⟨h0, h1, hd⟩ := decode_cases s.regs.stage r.word
  · have hstep := step_ok hr hd
    obtain ⟨t, ht⟩ | ⟨hall, hadm, href⟩ := exec_row_next_or_notAdmitted (sampleArgsOf r.word) (present r rest s)
    · rw [← or_assoc]; exact .inl (answered (hstep.trans ht))
    · have hne : ¬ (FitsItsFields s.params.widths r.protocol r.platform ∧ NineChecks s.params r.protocol r.platform) := by
        rw [← admits_iff]; exact ne_true_of_eq_false hadm
      exact .inr (.inr (.inr ⟨(opField_eq_sample_iff _).mp h0, (allPresent_sampleArgsOf_iff _).mp hall, hne,
        hstep.trans href⟩))
  · rw [← or_assoc]; exact .inl (answered (step_ok hr hd))
  · have h2 : 2 ≤ r.word.toNat / 2 ^ 68 := by
      rw [ne_eq, opField_eq_sample_iff] at h0
      rw [ne_eq, opField_eq_init_iff] at h1
      omega
    exact .inr (.inr (.inl ⟨h2, _, step_error hr hd⟩))

/-- A step with no request changes nothing. -/
theorem step_nil {s : State} (h : s.requests = []) : step s = .next s := by
  simp only [step, fetch_nil h]

/-- Settles O12: the queue is empty, so nothing is fetched. -/
theorem blockHoldsItsStateBetweenRequests : Obligations.BlockHoldsItsStateBetweenRequests :=
  fun _ => step_nil

/-! ## The registers' widths (R20) -/

/-- A register that is 0 fits every width. -/
theorem registersFit_of_zero {s : State} (h : s.regs = DecoderState.zero) : RegistersFit s := by
  simp [RegistersFit, h]

/-- Settles O51: power-on and INIT leave every register 0, and the limits are what `Widths` admits. -/
theorem registersFitFromInit : Obligations.RegistersFitFromInit := by
  refine ⟨fun _ _ => registersFit_of_zero rfl, fun s t h => ?_, fun w => ?_, rfl⟩
  · obtain rfl : t = { recover s with response := some .ok } := returnOk_next.mp h
    exact registersFit_of_zero rfl
  · exact ⟨w.field_ok.1, w.field_ok.2, w.cnt_ok.1, w.stage_codes_fit⟩

end Sys2Proof.Machine
end

section
/-! PROOF. The state family: what a request writes, one case per way it can end; the writers of each register (R28), the
chain of stages (R29), what is read (R36) and the invariants that every step keeps (R20, R21, R26, R27, R39). -/

namespace Sys2Proof.Machine

open Sys2Proof.Safety Sys2Proof.Claims

/-! ## The field stages as a table (42_stage_handlers.md, section 2) -/

/-- The SAMPLE row that receives a field (R77). -/
def Field.instr : Field → SampleArgs → Instr
  | .addr => .sampleAddr
  | .addrInv => .sampleAddrInv
  | .cmd => .sampleCmd
  | .cmdInv => .sampleCmdInv

/-- The stage value under which a field arrives (R75). -/
def Field.stage : Field → StageCode
  | .addr => 2
  | .addrInv => 3
  | .cmd => 4
  | .cmdInv => 5

/-- `next(F)` (R163, R164, R170, R171). -/
def Field.next (a : Params) (p : ProtocolConfig) : Field → StageCode
  | .addr => nextAfterAddr p
  | .addrInv => nextAfterAddrInv
  | .cmd => nextAfterCmd a.postCmdSelect p
  | .cmdInv => nextAfterCmdInv

/-- `v` passes the check at the end of a field (R165): only an inverse field has one, against its primary field. -/
def Field.Checked (p : ProtocolConfig) (d : DecoderState) : Field → FieldWord → Prop
  | .addr, _ => True
  | .addrInv, v => v = ~~~d.addr &&& mask p.addressBits.toNat
  | .cmd, _ => True
  | .cmdInv, v => v = ~~~d.cmd &&& mask p.commandBits.toNat

/-- The registers after a data bit has been taken into a field, but for `bit_idx` and the stage (R161). -/
def Field.take (f : Field) (b : Bool) (t : Timestamp) (s : State) : DecoderState :=
  (s.regs.setField f (accumulated s.params.widths.wField f b s.regs)).setSymbolStart t

@[simp] theorem Field.instr_args (f : Field) (q : SampleArgs) : (f.instr q).args? = some q := by cases f <;> rfl

theorem Field.instr_ne_init (f : Field) (q : SampleArgs) : f.instr q ≠ .init := by cases f <;> nofun

@[simp] theorem fieldRow?_instr (f : Field) (q : SampleArgs) : fieldRow? (f.instr q) = some (f, f.stage, q) := by
  cases f <;> rfl

theorem Field.take_stage (f : Field) (b : Bool) (t : Timestamp) (s : State) : (f.take b t s).stage = s.regs.stage := by
  simp [Field.take]

theorem Field.take_symbolStart (f : Field) (b : Bool) (t : Timestamp) (s : State) : (f.take b t s).symbolStart = t := by
  simp [Field.take]

/-- A bit taken into a field leaves the other fields. -/
theorem Field.take_field_ne {f g : Field} (h : g ≠ f) (b : Bool) (t : Timestamp) (s : State) :
    (f.take b t s).field g = s.regs.field g := by
  rw [Field.take, DecoderState.setSymbolStart_field, DecoderState.setField_field_ne _ _ h]

/-! ## What a request does, case by case -/

/-- How the request `i` can take the state `s` to a next state: each case with what it takes and the registers it writes. -/
inductive Transition (s : State) : Instr → State → Prop
  | failed {i : Instr} (hi : i ≠ .init) (k : ErrorKind) :
      Transition s i { s with errSeen := true, response := some (.error k) }
  | stayed {i : Instr} (hi : i ≠ .init) : Transition s i { s with response := some .ok }
  | initialised : Transition s .init { s with regs := DecoderState.zero, errSeen := false, response := some .ok }
  | frameStarted (q : SampleArgs) (hl : q.sample = .high) (hs : s.regs.stage = 0) :
      Transition s (.sampleIdle q)
        { s with regs := (s.regs.setSymbolStart q.timestamp).setStage 1, response := some .ok }
  | startEnded (q : SampleArgs) (hl : q.sample = .high) (ha : s.admitted = true) (hs : s.regs.stage = 1) :
      Transition s (.sampleStartSymbol q)
        { s with regs := (s.regs.setSymbolStart q.timestamp).setStage 2, response := some .ok }
  | bitTaken (f : Field) (q : SampleArgs) (b : Bool) (hl : q.sample = .high) (ha : s.admitted = true)
      (hs : s.regs.stage = f.stage) (he : s.regs.bitIdx.toNat + 1 ≠ (s.protocol.width f).toNat) :
      Transition s (f.instr q)
        { s with regs := (f.take b q.timestamp s).setBitIdx (nextBitIdx s), draws := nextDraws s, response := some .ok }
  | fieldEnded (f : Field) (q : SampleArgs) (b : Bool) (hl : q.sample = .high) (ha : s.admitted = true)
      (hs : s.regs.stage = f.stage) (he : s.regs.bitIdx.toNat + 1 = (s.protocol.width f).toNat)
      (hc : f.Checked s.protocol s.regs (accumulated s.params.widths.wField f b s.regs)) :
      Transition s (f.instr q)
        { s with regs := ((f.take b q.timestamp s).setBitIdx 0).setStage (f.next s.params s.protocol)
                 response := some .ok }
  | frameFinished (q : SampleArgs) (hs : s.regs.stage = 6) :
      Transition s (.sampleStopSymbol q) { s with regs := s.regs.setStage 7, response := some .ok }

/-- An accepted data bit is taken, or ends its field. -/
theorem Transition.of_accumulate {s : State} (f : Field) (q : SampleArgs) (b : Bool) (hl : q.sample = .high)
    (ha : s.admitted = true) (hs : s.regs.stage = f.stage)
    (hc : fieldEnds f s = true → f.Checked s.protocol s.regs (accumulated s.params.widths.wField f b s.regs)) :
    Transition s (f.instr q)
      { accumulate f (f.next s.params s.protocol) b q.timestamp s with response := some .ok } := by
  cases he : fieldEnds f s
  · rw [accumulate_of_not_ends he]
    exact .bitTaken f q b hl ha hs fun h => by simp [fieldEnds_iff.mpr h] at he
  · rw [accumulate_of_ends he]
    exact .fieldEnded f q b hl ha hs (fieldEnds_iff.mp he) (hc he)

/-- The rows of the primary fields: the end of the field has no check. -/
theorem Transition.of_primaryField {s t : State} {f : Field} {q : SampleArgs} (ha : s.admitted = true)
    (hs : s.regs.stage = f.stage) (hc : ∀ v, f.Checked s.protocol s.regs v)
    (h : primaryField f (f.next s.params s.protocol) q.sample q.timestamp s = .next t) : Transition s (f.instr q) t := by
  obtain ⟨k, rfl, -⟩ | rfl | ⟨b, hl, -, rfl⟩ := primaryField_next h
  · exact .failed (f.instr_ne_init q) k
  · exact .stayed (f.instr_ne_init q)
  · exact .of_accumulate f q b hl ha hs fun _ => hc _

/-- The rows of the inverse fields: the end of the field compares it with the primary field `v`. -/
theorem Transition.of_inverseField {s t : State} {f : Field} {q : SampleArgs} {v : FieldWord} (ha : s.admitted = true)
    (hs : s.regs.stage = f.stage)
    (hc : ∀ w, w = ~~~v &&& mask (s.protocol.width f).toNat → f.Checked s.protocol s.regs w)
    (h : inverseField f (f.next s.params s.protocol) v q.sample q.timestamp s = .next t) :
    Transition s (f.instr q) t := by
  obtain ⟨k, rfl, -⟩ | rfl | ⟨b, hl, -, hm, rfl⟩ := inverseField_next h
  · exact .failed (f.instr_ne_init q) k
  · exact .stayed (f.instr_ne_init q)
  · exact .of_accumulate f q b hl ha hs fun he => hc _ (inverseMatches_iff.mp (hm he))

/-- A SAMPLE row that answers a next state fails a null check, or is what its handler does at its own stage. -/
theorem Transition.of_sample {s t : State} {i : Instr} {row : StageRow} {q : SampleArgs}
    {handler : State → Host.Outcome State Fault Refusal} (hi : i ≠ .init) (h : sample row q handler s = .next t)
    (hh : s.admitted = true → rowOfStage s.regs.stage = row → handler s = .next t → Transition s i t) :
    Transition s i t := by
  obtain ⟨k, rfl, -⟩ | ⟨-, -, -, ha, hr, ht⟩ := sample_next h
  · exact .failed hi k
  · exact hh ha hr ht

/-- Every request that answers a next state makes one of the transitions. -/
theorem exec_transition {i : Instr} {s t : State} (h : exec i s = .next t) : Transition s i t := by
  cases i with
  | init => obtain rfl := returnOk_next.mp h; exact .initialised
  | sampleIdle q =>
    refine .of_sample nofun h fun _ hr ht => ?_
    obtain ⟨-, rfl⟩ | ⟨hl, rfl⟩ := handleIdle_next ht
    · exact .stayed nofun
    · exact .frameStarted q hl ((rowOfStage_idle _).mp hr)
  | sampleStartSymbol q =>
    refine .of_sample nofun h fun ha hr ht => ?_
    obtain ⟨k, rfl, -⟩ | rfl | ⟨hl, rfl⟩ := handleStartSymbol_next ht
    · exact .failed (by nofun) k
    · exact .stayed nofun
    · exact .startEnded q hl ha ((rowOfStage_startSymbol _).mp hr)
  | sampleAddr q =>
    exact .of_sample nofun h fun ha hr ht =>
      .of_primaryField (f := .addr) ha ((rowOfStage_addr _).mp hr) (fun _ => trivial) ht
  | sampleAddrInv q =>
    exact .of_sample nofun h fun ha hr ht =>
      .of_inverseField (f := .addrInv) ha ((rowOfStage_addrInv _).mp hr) (fun _ => id) ht
  | sampleCmd q =>
    exact .of_sample nofun h fun ha hr ht =>
      .of_primaryField (f := .cmd) ha ((rowOfStage_cmd _).mp hr) (fun _ => trivial) ht
  | sampleCmdInv q =>
    exact .of_sample nofun h fun ha hr ht =>
      .of_inverseField (f := .cmdInv) ha ((rowOfStage_cmdInv _).mp hr) (fun _ => id) ht
  | sampleStopSymbol q =>
    refine .of_sample nofun h fun _ hr ht => ?_
    obtain ⟨k, rfl, -⟩ | rfl | ⟨-, rfl⟩ := handleStopSymbol_next ht
    · exact .failed (by nofun) k
    · exact .stayed nofun
    · exact .frameFinished q ((rowOfStage_stopSymbol _).mp hr)
  | sampleFinished q =>
    refine .of_sample nofun h fun _ _ ht => ?_
    obtain rfl | rfl := finishedPolicy_next ht
    · exact .stayed nofun
    · exact .failed (by nofun) _
  | sampleInvalidStage q =>
    refine .of_sample nofun h fun _ _ ht => ?_
    obtain rfl := raise_next.mp ht
    exact .failed (by nofun) _

/-! ## The step and the run -/

/-- A property that every step keeps holds after any number of steps. -/
theorem run_keeps {P : State → Prop} (hstep : ∀ s t, P s → step s = .next t → P t) :
    ∀ (n : Nat) {s t : State}, P s → core.run n s = .next t → P t
  | 0, s, t, hs, h => Host.Outcome.next.inj h ▸ hs
  | n + 1, s, t, hs, h => by
    simp only [Host.Core.run] at h
    split at h
    · exact run_keeps hstep n (hstep s _ hs ‹_›) h
    · cases h
    · cases h

/-! ## What no request writes, and the ghost bit (R8, R34, R37) -/

/-- Settles O32: none of the four effects writes them. -/
theorem configurationIsReadOnly : Obligations.ConfigurationIsReadOnly := by
  intro i s t h
  cases exec_effect h <;> exact ⟨rfl, rfl, rfl, rfl⟩

/-- Settles O29: INIT alone clears the bit, and a failing SAMPLE alone sets it. -/
theorem errSeenIsClearedOnlyByInit : Obligations.ErrSeenIsClearedOnlyByInit := by
  intro i s t h
  cases exec_transition h with
  | failed hi k => exact ⟨fun h => absurd h hi, fun _ _ => rfl, nofun⟩
  | stayed hi => exact ⟨fun h => absurd h hi, nofun, fun _ _ => rfl⟩
  | initialised => exact ⟨fun _ => rfl, nofun, fun h => absurd rfl h⟩
  | frameStarted q => exact ⟨nofun, nofun, fun _ _ => rfl⟩
  | startEnded q => exact ⟨nofun, nofun, fun _ _ => rfl⟩
  | bitTaken f q => exact ⟨fun h => absurd h (f.instr_ne_init q), nofun, fun _ _ => rfl⟩
  | fieldEnded f q => exact ⟨fun h => absurd h (f.instr_ne_init q), nofun, fun _ _ => rfl⟩
  | frameFinished q => exact ⟨nofun, nofun, fun _ _ => rfl⟩

/-! ## The writers of each register (R28) -/

/-- A field register is written only by its own stage's row, and by INIT. -/
theorem Transition.field_eq {i : Instr} {s t : State} (h : Transition s i t) (hi : i ≠ .init) {g : Field}
    (hg : ∀ q, i ≠ g.instr q) : t.regs.field g = s.regs.field g := by
  cases h with
  | failed => rfl
  | stayed => rfl
  | initialised => exact absurd rfl hi
  | frameStarted q => simp
  | startEnded q => simp
  | bitTaken f q =>
    have hne : g ≠ f := fun h => hg q (h ▸ rfl)
    simp [Field.take_field_ne hne]
  | fieldEnded f q =>
    have hne : g ≠ f := fun h => hg q (h ▸ rfl)
    simp [Field.take_field_ne hne]
  | frameFinished q => simp

/-- `symbol_start_usecs` becomes only the timestamp of a high sample (R23). -/
theorem Transition.symbolStart {i : Instr} {s t : State} (h : Transition s i t) (hi : i ≠ .init) :
    t.regs.symbolStart = s.regs.symbolStart ∨
    ∃ q, i.args? = some q ∧ q.sample = .high ∧ t.regs.symbolStart = q.timestamp := by
  cases h with
  | failed => exact .inl rfl
  | stayed => exact .inl rfl
  | initialised => exact absurd rfl hi
  | frameStarted q hl => exact .inr ⟨q, rfl, hl, rfl⟩
  | startEnded q hl => exact .inr ⟨q, rfl, hl, rfl⟩
  | bitTaken f q b hl => exact .inr ⟨q, f.instr_args q, hl, f.take_symbolStart b q.timestamp s⟩
  | fieldEnded f q b hl => exact .inr ⟨q, f.instr_args q, hl, f.take_symbolStart b q.timestamp s⟩
  | frameFinished q => exact .inl rfl

/-- Only a field row writes `bit_idx` (R22), and draws a free value for it. -/
theorem Transition.bitIdx_eq {i : Instr} {s t : State} (h : Transition s i t) (hi : i ≠ .init)
    (hf : fieldRow? i = none) : t.regs.bitIdx = s.regs.bitIdx ∧ t.draws = s.draws := by
  cases h with
  | failed => exact ⟨rfl, rfl⟩
  | stayed => exact ⟨rfl, rfl⟩
  | initialised => exact absurd rfl hi
  | frameStarted q => exact ⟨rfl, rfl⟩
  | startEnded q => exact ⟨rfl, rfl⟩
  | bitTaken f q => rw [fieldRow?_instr] at hf; cases hf
  | fieldEnded f q => rw [fieldRow?_instr] at hf; cases hf
  | frameFinished q => exact ⟨rfl, rfl⟩

/-- StopSymbol, Finished and InvalidStage write at most the stage, and the last two not even that. -/
theorem Transition.regs_eq {s t : State} {i : Instr} {q : SampleArgs} (h : Transition s i t)
    (hi : i = .sampleStopSymbol q ∨ i = .sampleFinished q ∨ i = .sampleInvalidStage q) :
    t.regs = s.regs ∨ i = .sampleStopSymbol q ∧ t.regs = s.regs.setStage t.regs.stage := by
  cases h with
  | failed => exact .inl rfl
  | stayed => exact .inl rfl
  | initialised => simp at hi
  | frameStarted => simp at hi
  | startEnded => simp at hi
  | bitTaken f => cases f <;> simp [Field.instr] at hi
  | fieldEnded f => cases f <;> simp [Field.instr] at hi
  | frameFinished => simp_all

/-- Settles O31, register by register. -/
theorem eachRegisterHasItsWriters : Obligations.EachRegisterHasItsWriters := by
  intro i s t h hi
  have ht := exec_transition h
  refine ⟨fun q hq => ?_, ht.field_eq hi (g := .addr), ht.field_eq hi (g := .addrInv), ht.field_eq hi (g := .cmd),
    ht.field_eq hi (g := .cmdInv), ht.bitIdx_eq hi, fun q hq => ?_, ht.symbolStart hi⟩
  · obtain he | ⟨rfl, -⟩ := ht.regs_eq (.inr hq)
    · exact he
    · simp at hq
  · obtain he | ⟨-, he⟩ := ht.regs_eq (.inl hq)
    · rw [he]
    · exact he

/-! ## The chain of stages (R21, R29) -/

/-- The steps of the chain Idle, StartSymbol, Addr, [AddrInv], Cmd, [CmdInv], StopSymbol, Finished (R29). -/
def stageSteps : List (Nat × Nat) := [(0, 1), (1, 2), (2, 3), (2, 4), (3, 4), (4, 5), (4, 6), (5, 6), (6, 7)]

/-- The end of a field is a step of the chain. -/
theorem Field.stage_next_mem (a : Params) (p : ProtocolConfig) (f : Field) :
    (f.stage.toNat, (f.next a p).toNat) ∈ stageSteps := by
  cases f with
  | addr => simp only [Field.next, nextAfterAddr]; split <;> decide
  | addrInv => simp [Field.stage, Field.next, nextAfterAddrInv, stageSteps]
  | cmd => simp only [Field.next, nextAfterCmd]; split <;> decide
  | cmdInv => simp [Field.stage, Field.next, nextAfterCmdInv, stageSteps]

/-- A request leaves the stage, moves it one step along the chain, or is INIT. -/
theorem Transition.stage {i : Instr} {s t : State} (h : Transition s i t) :
    (i = .init ∧ t.regs.stage.toNat = 0) ∨
    (i ≠ .init ∧ (t.regs.stage = s.regs.stage ∨ (s.regs.stage.toNat, t.regs.stage.toNat) ∈ stageSteps)) := by
  cases h with
  | failed hi k => exact .inr ⟨hi, .inl rfl⟩
  | stayed hi => exact .inr ⟨hi, .inl rfl⟩
  | initialised => exact .inl ⟨rfl, rfl⟩
  | frameStarted q _ hs => exact .inr ⟨nofun, .inr (by simp [hs, stageSteps])⟩
  | startEnded q _ _ hs => exact .inr ⟨nofun, .inr (by simp [hs, stageSteps])⟩
  | bitTaken f q b => exact .inr ⟨f.instr_ne_init q, .inl (f.take_stage b q.timestamp s)⟩
  | fieldEnded f q _ _ _ hs => exact .inr ⟨f.instr_ne_init q, .inr (hs ▸ f.stage_next_mem s.params s.protocol)⟩
  | frameFinished q hs => exact .inr ⟨nofun, .inr (by simp [hs, stageSteps])⟩

/-- Every stage of the chain is legal. -/
theorem le_seven_of_mem_stageSteps {m n : Nat} (h : (m, n) ∈ stageSteps) : n ≤ 7 := by
  have hall : ∀ x ∈ stageSteps, x.2 ≤ 7 := by decide
  exact hall _ h

/-- Settles O33, by the transition's stage. -/
theorem stageMovesOneStepAlongTheChain : Obligations.StageMovesOneStepAlongTheChain := by
  intro i s t h
  obtain ⟨hi, h0⟩ | ⟨hi, hm⟩ := (exec_transition h).stage
  · exact ⟨fun _ => h0, fun hn => absurd hi hn⟩
  · exact ⟨fun h => absurd h hi, fun _ => hm⟩

/-- A request leaves the stage or writes a legal one. -/
theorem exec_stage {i : Instr} {s t : State} (h : exec i s = .next t) :
    t.regs.stage = s.regs.stage ∨ t.regs.stage.toNat ≤ 7 := by
  obtain ⟨-, h0⟩ | ⟨-, he | hm⟩ := (exec_transition h).stage
  · exact .inr (by omega)
  · exact .inl he
  · exact .inr (le_seven_of_mem_stageSteps hm)

/-- Settles O42: a step holds the state or performs a request, which writes only stages of the chain. -/
theorem everyStepKeepsTheStageLegal : Obligations.EveryStepKeepsTheStageLegal := by
  intro s t hs h
  obtain ⟨-, rfl⟩ | ⟨r, rest, i, -, -, hx⟩ := step_next h
  · exact hs
  · obtain he | hle := exec_stage hx
    · rw [he]; exact hs
    · exact hle

/-! ## The widths of the registers (R20) -/

/-- Taking a bit keeps every field register within `W_FIELD` bits. -/
theorem Field.take_field_lt {s : State} (h : ∀ g, (s.regs.field g).toNat < 2 ^ s.params.widths.wField) (f : Field)
    (b : Bool) (t : Timestamp) (g : Field) : ((f.take b t s).field g).toNat < 2 ^ s.params.widths.wField := by
  rw [Field.take, DecoderState.setSymbolStart_field]
  by_cases hg : g = f
  · rw [hg, DecoderState.setField_field_same]; exact accumulated_fits ..
  · rw [DecoderState.setField_field_ne _ _ hg]; exact h g

/-- The four field registers are those of the four fields. -/
theorem registersFit_iff (s : State) : RegistersFit s ↔
    s.regs.stage.toNat < 2 ^ s.params.widths.wStage ∧ s.regs.bitIdx.toNat < 2 ^ s.params.widths.wCnt ∧
    ∀ f, (s.regs.field f).toNat < 2 ^ s.params.widths.wField := by
  refine and_congr_right fun _ => and_congr_right fun _ => ⟨fun ⟨ha, hia, hc, hic⟩ f => ?_, fun h => ?_⟩
  · cases f with
    | addr => exact ha
    | addrInv => exact hia
    | cmd => exact hc
    | cmdInv => exact hic
  · exact ⟨h .addr, h .addrInv, h .cmd, h .cmdInv⟩

/-- Every request keeps the registers within their widths: a stage it writes is legal, a count is at most the next one or a
value of its width, and a field is accumulated in `W_FIELD` bits. -/
theorem exec_keeps_registersFit {i : Instr} {s t : State} (hs : RegistersFit s) (h : exec i s = .next t) :
    RegistersFit t := by
  obtain ⟨hstage, hcnt, hfield⟩ := (registersFit_iff s).mp hs
  obtain ⟨-, -, hparams, -⟩ := configurationIsReadOnly i s t h
  have hstage' : t.regs.stage.toNat < 2 ^ t.params.widths.wStage := by
    rw [hparams]
    obtain he | hle := exec_stage h
    · rw [he]; exact hstage
    · exact Nat.lt_of_le_of_lt hle s.params.widths.stage_codes_fit
  rw [registersFit_iff]
  refine ⟨hstage', ?_⟩
  cases exec_transition h with
  | failed _ k => exact ⟨hcnt, hfield⟩
  | stayed => exact ⟨hcnt, hfield⟩
  | initialised => exact ((registersFit_iff _).mp (registersFit_of_zero rfl)).2
  | frameStarted q => exact ⟨hcnt, by simpa using hfield⟩
  | startEnded q => exact ⟨hcnt, by simpa using hfield⟩
  | bitTaken f q b => exact ⟨nextBitIdx_fits s, by simpa using f.take_field_lt hfield b q.timestamp⟩
  | fieldEnded f q b => exact ⟨Nat.two_pow_pos _, by simpa using f.take_field_lt hfield b q.timestamp⟩
  | frameFinished q => exact ⟨hcnt, by simpa using hfield⟩

/-- Settles O50: what the port takes is not a register, and every request keeps the widths. -/
theorem everyStepKeepsRegistersWithinTheirWidths : Obligations.EveryStepKeepsRegistersWithinTheirWidths := by
  intro s t hs h
  obtain ⟨-, rfl⟩ | ⟨r, rest, i, -, -, hx⟩ := step_next h
  · exact hs
  · exact exec_keeps_registersFit (s := present r rest s) hs hx

/-- Settles O40: a register within its width is read whole. -/
theorem hostReadsWholeRegisters : Obligations.HostReadsWholeRegisters := by
  intro s ⟨hstage, hcnt, haddr, hinvAddr, hcmd, hinvCmd⟩
  have read {n w : Nat} {v : BitVec n} (h : v.toNat < 2 ^ w) : (v.setWidth w).toNat = v.toNat := by
    rw [BitVec.toNat_setWidth, Nat.mod_eq_of_lt h]
  exact ⟨rfl, read hstage, read hcnt, rfl, read haddr, read hcmd, read hinvAddr, read hinvCmd⟩

/-! ## The step performs the decoded request (R77) -/

/-- Settles O11: `present` names the state the request is performed in. -/
theorem stepPerformsTheDecodedRequest : Obligations.StepPerformsTheDecodedRequest :=
  fun _ _ _ _ => step_ok

/-! ## What a request reads (R36, R142) -/

/-- Two states agree on all that a request may read: the DecoderState, the configuration, the parameters and the model's
counter of free values. -/
structure SameInputs (s u : State) : Prop where
  regs     : s.regs = u.regs
  protocol : s.protocol = u.protocol
  platform : s.platform = u.platform
  params   : s.params = u.params
  draws    : s.draws = u.draws

/-- Two answers agree on the registers and the result, or are the same refusal. -/
inductive SameAnswer : Host.Outcome State Fault Refusal → Host.Outcome State Fault Refusal → Prop
  | next {t v : State} (hregs : v.regs = t.regs) (hresp : v.response = t.response) : SameAnswer (.next t) (.next v)
  | refused (r : Refusal) : SameAnswer (.refused r) (.refused r)

theorem returnOk_sameAnswer {s u : State} (h : s.regs = u.regs) : SameAnswer (returnOk s) (returnOk u) :=
  .next h.symm rfl

theorem raise_sameAnswer {s u : State} (k : ErrorKind) (h : s.regs = u.regs) : SameAnswer (raise k s) (raise k u) :=
  .next h.symm rfl

/-- An answer that agrees with a next state is one. -/
theorem SameAnswer.of_next {t : State} {o : Host.Outcome State Fault Refusal} (h : SameAnswer (.next t) o) :
    ∃ v, o = .next v ∧ v.regs = t.regs ∧ v.response = t.response := by
  cases h with | next hregs hresp => exact ⟨_, rfl, hregs, hresp⟩

/-- An answer that agrees with a refusal is it. -/
theorem SameAnswer.of_refused {r : Refusal} {o : Host.Outcome State Fault Refusal} (h : SameAnswer (.refused r) o) :
    o = .refused r := by
  cases h; rfl

section
variable {s u : State}

theorem SameInputs.admitted (h : SameInputs s u) : s.admitted = u.admitted := by
  simp only [State.admitted, h.params, h.protocol, h.platform]

theorem SameInputs.fieldEnds (h : SameInputs s u) (f : Field) : fieldEnds f s = fieldEnds f u := by
  simp only [Machine.fieldEnds, h.regs, h.protocol]

theorem SameInputs.inverseMatches (h : SameInputs s u) (f : Field) (v : FieldWord) (b : Bool) :
    inverseMatches f v b s = inverseMatches f v b u := by
  simp only [Machine.inverseMatches, h.regs, h.protocol, h.params]

theorem SameInputs.nextBitIdx (h : SameInputs s u) : nextBitIdx s = nextBitIdx u := by
  rw [Machine.nextBitIdx, Machine.nextBitIdx, incrementFits, incrementFits, h.regs, h.params, h.draws]

theorem SameInputs.accumulate_regs (h : SameInputs s u) (f : Field) (nxt : StageCode) (b : Bool) (t : Timestamp) :
    (accumulate f nxt b t s).regs = (accumulate f nxt b t u).regs := by
  cases he : Machine.fieldEnds f u
  · rw [accumulate_of_not_ends he, accumulate_of_not_ends ((h.fieldEnds f).trans he), h.nextBitIdx, h.regs, h.params]
  · rw [accumulate_of_ends he, accumulate_of_ends ((h.fieldEnds f).trans he), h.regs, h.params]

/-- The checks of the dispatcher read no more than the handlers may (R101, R107). -/
theorem SameInputs.sample (h : SameInputs s u) (row : StageRow) (q : SampleArgs)
    {handler : State → Host.Outcome State Fault Refusal} (hh : SameAnswer (handler s) (handler u)) :
    SameAnswer (sample row q handler s) (sample row q handler u) := by
  simp only [Machine.sample, h.admitted, h.regs]
  split
  · exact raise_sameAnswer _ h.regs
  · split
    · exact raise_sameAnswer _ h.regs
    · split
      · exact raise_sameAnswer _ h.regs
      · split
        · exact .refused _
        · split
          · exact .refused _
          · exact hh

theorem SameInputs.handleIdle (h : SameInputs s u) (l : Level) (t : Timestamp) :
    SameAnswer (handleIdle l t s) (handleIdle l t u) := by
  cases l with
  | low => exact returnOk_sameAnswer h.regs
  | high => exact returnOk_sameAnswer (by rw [h.regs])

theorem SameInputs.handleStartSymbol (h : SameInputs s u) (l : Level) (t : Timestamp) :
    SameAnswer (handleStartSymbol l t s) (handleStartSymbol l t u) := by
  simp only [Machine.handleStartSymbol, h.regs, h.protocol, h.platform]
  split
  · exact raise_sameAnswer _ h.regs
  · exact returnOk_sameAnswer h.regs
  · exact returnOk_sameAnswer rfl

theorem SameInputs.handleStopSymbol (h : SameInputs s u) (l : Level) (t : Timestamp) :
    SameAnswer (handleStopSymbol l t s) (handleStopSymbol l t u) := by
  simp only [Machine.handleStopSymbol, h.regs, h.protocol, h.platform, h.params]
  split
  · exact raise_sameAnswer _ h.regs
  · exact returnOk_sameAnswer h.regs
  · exact returnOk_sameAnswer rfl

theorem SameInputs.primaryField (h : SameInputs s u) (f : Field) {nxt nxt' : StageCode} (hn : nxt = nxt') (l : Level)
    (t : Timestamp) : SameAnswer (primaryField f nxt l t s) (primaryField f nxt' l t u) := by
  subst hn
  simp only [Machine.primaryField, h.regs, h.protocol, h.platform, h.params]
  split
  · exact raise_sameAnswer _ h.regs
  · exact returnOk_sameAnswer h.regs
  · exact returnOk_sameAnswer (h.accumulate_regs ..)

theorem SameInputs.inverseField (h : SameInputs s u) (f : Field) (nxt : StageCode) {v v' : FieldWord} (hv : v = v')
    (l : Level) (t : Timestamp) : SameAnswer (inverseField f nxt v l t s) (inverseField f nxt v' l t u) := by
  subst hv
  simp only [Machine.inverseField, h.regs, h.protocol, h.platform, h.params, h.fieldEnds, h.inverseMatches]
  split
  · exact raise_sameAnswer _ h.regs
  · exact returnOk_sameAnswer h.regs
  · split
    · exact raise_sameAnswer _ h.regs
    · exact returnOk_sameAnswer (h.accumulate_regs ..)

theorem SameInputs.finishedPolicy (h : SameInputs s u) : SameAnswer (finishedPolicy s) (finishedPolicy u) := by
  simp only [Machine.finishedPolicy, h.params]
  split
  · exact returnOk_sameAnswer h.regs
  · exact raise_sameAnswer _ h.regs

/-- Every row of SAMPLE, and INIT, answers alike on states that agree. -/
theorem SameInputs.exec (h : SameInputs s u) (i : Instr) : SameAnswer (exec i s) (exec i u) := by
  cases i with
  | init => exact returnOk_sameAnswer rfl
  | sampleIdle q => exact h.sample _ q (h.handleIdle ..)
  | sampleStartSymbol q => exact h.sample _ q (h.handleStartSymbol ..)
  | sampleAddr q => exact h.sample _ q (h.primaryField _ (by rw [h.protocol]) ..)
  | sampleAddrInv q => exact h.sample _ q (h.inverseField _ _ (by rw [h.regs]) ..)
  | sampleCmd q => exact h.sample _ q (h.primaryField _ (by rw [h.protocol, h.params]) ..)
  | sampleCmdInv q => exact h.sample _ q (h.inverseField _ _ (by rw [h.regs]) ..)
  | sampleStopSymbol q => exact h.sample _ q (h.handleStopSymbol ..)
  | sampleFinished q => exact h.sample _ q h.finishedPolicy
  | sampleInvalidStage q => exact h.sample _ q (raise_sameAnswer _ h.regs)

end

/-- Settles O34: the ghost bit, the response and the pending requests are not among the inputs. -/
theorem noHiddenStateIsRead : Obligations.NoHiddenStateIsRead := by
  intro i s u hregs hprotocol hplatform hparams hdraws
  have h : SameAnswer (exec i s) (exec i u) := SameInputs.exec ⟨hregs, hprotocol, hplatform, hparams, hdraws⟩ i
  exact ⟨fun t ht => SameAnswer.of_next (ht ▸ h), fun r hr => SameAnswer.of_refused (hr ▸ h)⟩

/-! ## Sessions under one configuration (R26, R27, R39, R246) -/

/-- The registers' part of `SessionInv`. -/
abbrev SessionRegs (a : Params) (p : ProtocolConfig) (d : DecoderState) : Prop :=
  Reachable a p d ∧ (d.stage.toNat < 2 → d.addr = 0) ∧ (d.stage = 4 → d.invCmd = 0)

/-- The registers' part of `UnverifiedInversesZero`. -/
abbrev InversesZero (a : Params) (p : ProtocolConfig) (d : DecoderState) : Prop :=
  (p.addrVerifyInverse = false → d.stage ≠ 3 ∧ d.invAddr = 0) ∧
  (postCmdFlag a.postCmdSelect p = false → d.stage ≠ 5 ∧ d.invCmd = 0)

/-- Under one constant configuration a step keeps a property of the registers that every request keeps. -/
theorem step_keeps_session {p : ProtocolConfig} {pl : PlatformConfig} {P : Params → DecoderState → Prop}
    (he : ∀ i u t, u.protocol = p → P u.params u.regs → exec i u = .next t → P u.params t.regs) {s t : State}
    (hs : ConstantConfiguration p pl s ∧ P s.params s.regs) (h : step s = .next t) :
    ConstantConfiguration p pl t ∧ P t.params t.regs := by
  obtain ⟨-, rfl⟩ | ⟨r, rest, i, hr, -, hx⟩ := step_next h
  · exact hs
  · obtain ⟨hconst, hP⟩ := hs
    obtain ⟨-, -, hparams, hreqs⟩ := configurationIsReadOnly i _ t hx
    refine ⟨fun r' hr' => hconst r' ?_, ?_⟩
    · rw [hreqs] at hr'
      exact hr ▸ List.mem_cons_of_mem r hr'
    · rw [hparams]
      exact he i _ t (hconst r (hr ▸ List.mem_cons_self)).1 hP hx

/-- Without `addr_verify_inverse` no field ends in AddrInv (R163). -/
theorem Field.next_ne_addrInv {a : Params} {p : ProtocolConfig} (ha : p.addrVerifyInverse = false) (f : Field) :
    f.next a p ≠ Field.addrInv.stage := by
  cases f with
  | addr => simp [Field.next, nextAfterAddr, ha, Field.stage]
  | addrInv => simp [Field.next, nextAfterAddrInv, Field.stage]
  | cmd => simp only [Field.next, nextAfterCmd]; split <;> simp [Field.stage]
  | cmdInv => simp [Field.next, nextAfterCmdInv, Field.stage]

/-- Without the flag that `POST_CMD_SELECT` names no field ends in CmdInv (R170). -/
theorem Field.next_ne_cmdInv {a : Params} {p : ProtocolConfig} (hc : postCmdFlag a.postCmdSelect p = false) (f : Field) :
    f.next a p ≠ Field.cmdInv.stage := by
  cases f with
  | addr => simp only [Field.next, nextAfterAddr]; split <;> simp [Field.stage]
  | addrInv => simp [Field.next, nextAfterAddrInv, Field.stage]
  | cmd => simp [Field.next, nextAfterCmd, hc, Field.stage]
  | cmdInv => simp [Field.next, nextAfterCmdInv, Field.stage]

/-- A field whose stage is not entered by the end of another field stays 0, and its stage is not entered: the start symbol
enters Addr alone. -/
theorem Transition.keeps_field_zero {i : Instr} {s t : State} (h : Transition s i t) {g : Field} (hg : g ≠ .addr)
    (hnext : ∀ f : Field, f.next s.params s.protocol ≠ g.stage) (hs : s.regs.stage ≠ g.stage ∧ s.regs.field g = 0) :
    t.regs.stage ≠ g.stage ∧ t.regs.field g = 0 := by
  obtain ⟨hstage, hzero⟩ := hs
  cases h with
  | failed => exact ⟨hstage, hzero⟩
  | stayed => exact ⟨hstage, hzero⟩
  | initialised => cases g <;> simp [Field.stage]
  | frameStarted q => exact ⟨by cases g <;> simp [Field.stage], by simpa using hzero⟩
  | startEnded q => exact ⟨by cases g <;> simp_all [Field.stage], by simpa using hzero⟩
  | bitTaken f q b _ _ hf =>
    have hne : g ≠ f := fun he => hstage (he ▸ hf)
    exact ⟨by simpa [Field.take_stage] using hstage, by simpa [Field.take_field_ne hne] using hzero⟩
  | fieldEnded f q b _ _ hf =>
    have hne : g ≠ f := fun he => hstage (he ▸ hf)
    exact ⟨hnext f, by simpa [Field.take_field_ne hne] using hzero⟩
  | frameFinished q => exact ⟨by cases g <;> simp [Field.stage], by simpa using hzero⟩

/-- Every request keeps an inverse field that the configuration does not ask for at 0. -/
theorem exec_keeps_inversesZero {i : Instr} {s t : State} (hs : InversesZero s.params s.protocol s.regs)
    (h : exec i s = .next t) : InversesZero s.params s.protocol t.regs :=
  ⟨fun ha => (exec_transition h).keeps_field_zero (g := .addrInv) nofun (Field.next_ne_addrInv ha) (hs.1 ha),
   fun hc => (exec_transition h).keeps_field_zero (g := .cmdInv) nofun (Field.next_ne_cmdInv hc) (hs.2 hc)⟩

/-- Settles O46, by the registers' part. -/
theorem everyStepKeepsUnverifiedInversesZero : Obligations.EveryStepKeepsUnverifiedInversesZero :=
  fun _ _ _ _ => step_keeps_session (P := fun a d => InversesZero a _ d) fun _ _ _ hp hP hx => by
    subst hp; exact exec_keeps_inversesZero hP hx

/-! ## The invariants of a session (R39) -/

section
variable {a : Params} {p : ProtocolConfig} {d : DecoderState}

/-- The clauses of the session invariant side by side, so that one rewriting with a stage value decides which of them
speak of it. -/
theorem sessionRegs_iff : SessionRegs a p d ↔
    (d.stage.toNat ≤ 7 ∧
      (((d.stage = 2 ∨ d.stage = 3) → d.bitIdx.toNat < p.addressBits.toNat) ∧
        ((d.stage = 4 ∨ d.stage = 5) → d.bitIdx.toNat < p.commandBits.toNat) ∧
        ((d.stage = 0 ∨ d.stage = 1 ∨ d.stage = 6 ∨ d.stage = 7) → d.bitIdx = 0)) ∧
      (d.addr.toNat < 2 ^ p.addressBits.toNat ∧ d.invAddr.toNat < 2 ^ p.addressBits.toNat ∧
        d.cmd.toNat < 2 ^ p.commandBits.toNat ∧ d.invCmd.toNat < 2 ^ p.commandBits.toNat) ∧
      ((d.stage = 2 → d.addr.toNat < 2 ^ d.bitIdx.toNat) ∧ (d.stage = 3 → d.invAddr.toNat < 2 ^ d.bitIdx.toNat) ∧
        (d.stage = 4 → d.cmd.toNat < 2 ^ d.bitIdx.toNat) ∧ (d.stage = 5 → d.invCmd.toNat < 2 ^ d.bitIdx.toNat)) ∧
      ((d.stage.toNat < 4 → d.cmd = 0 ∧ d.invCmd = 0) ∧ (d.stage.toNat < 3 → d.invAddr = 0)) ∧
      ((4 ≤ d.stage.toNat ∧ d.stage.toNat ≤ 7 → p.addrVerifyInverse = true →
          d.invAddr = ~~~d.addr &&& mask p.addressBits.toNat) ∧
        ((d.stage = 6 ∨ d.stage = 7) → postCmdFlag a.postCmdSelect p = true →
          d.invCmd = ~~~d.cmd &&& mask p.commandBits.toNat))) ∧
    (d.stage.toNat < 2 → d.addr = 0) ∧ (d.stage = 4 → d.invCmd = 0) := Iff.rfl

/-- What the invariants say of the address fields once they have been received. -/
def AddressReceived (p : ProtocolConfig) (d : DecoderState) : Prop :=
  d.addr.toNat < 2 ^ p.addressBits.toNat ∧ d.invAddr.toNat < 2 ^ p.addressBits.toNat ∧
  (p.addrVerifyInverse = true → d.invAddr = ~~~d.addr &&& mask p.addressBits.toNat)

/-- What the invariants say of the command fields once they have been received. -/
def CommandReceived (a : Params) (p : ProtocolConfig) (d : DecoderState) : Prop :=
  d.cmd.toNat < 2 ^ p.commandBits.toNat ∧ d.invCmd.toNat < 2 ^ p.commandBits.toNat ∧
  (postCmdFlag a.postCmdSelect p = true → d.invCmd = ~~~d.cmd &&& mask p.commandBits.toNat)

/-- A field with no bit at or above the count of its bits so far is within its width. -/
theorem lt_width_of_partial {v : FieldWord} {i w : Nat} (hv : v.toNat < 2 ^ i) (hi : i < w) : v.toNat < 2 ^ w :=
  Nat.lt_trans hv (Nat.pow_lt_pow_right Nat.one_lt_two hi)

/-! The session invariant, stage by stage. -/

theorem sessionRegs_before (hs : d.stage = 0 ∨ d.stage = 1) : SessionRegs a p d ↔
    d.bitIdx = 0 ∧ d.addr = 0 ∧ d.invAddr = 0 ∧ d.cmd = 0 ∧ d.invCmd = 0 := by
  rw [sessionRegs_iff]
  obtain hs | hs := hs <;> rw [hs] <;> constructor <;> simp +contextual

theorem sessionRegs_addr (hs : d.stage = 2) : SessionRegs a p d ↔
    d.bitIdx.toNat < p.addressBits.toNat ∧ d.addr.toNat < 2 ^ d.bitIdx.toNat ∧
    d.invAddr = 0 ∧ d.cmd = 0 ∧ d.invCmd = 0 := by
  rw [sessionRegs_iff, hs]
  constructor
  · simp +contextual
  · rintro ⟨hi, hv, h⟩
    have hw := lt_width_of_partial hv hi
    simp_all

theorem sessionRegs_addrInv (hs : d.stage = 3) : SessionRegs a p d ↔
    d.bitIdx.toNat < p.addressBits.toNat ∧ d.addr.toNat < 2 ^ p.addressBits.toNat ∧
    d.invAddr.toNat < 2 ^ d.bitIdx.toNat ∧ d.cmd = 0 ∧ d.invCmd = 0 := by
  rw [sessionRegs_iff, hs]
  constructor
  · simp +contextual
  · rintro ⟨hi, ha, hv, h⟩
    have hw := lt_width_of_partial hv hi
    simp_all

theorem sessionRegs_cmd (hs : d.stage = 4) : SessionRegs a p d ↔
    d.bitIdx.toNat < p.commandBits.toNat ∧ AddressReceived p d ∧ d.cmd.toNat < 2 ^ d.bitIdx.toNat ∧ d.invCmd = 0 := by
  rw [sessionRegs_iff, hs, AddressReceived]
  constructor
  · simp +contextual
  · rintro ⟨hi, h, hv, hic⟩
    have hw := lt_width_of_partial hv hi
    simp_all

theorem sessionRegs_cmdInv (hs : d.stage = 5) : SessionRegs a p d ↔
    d.bitIdx.toNat < p.commandBits.toNat ∧ AddressReceived p d ∧ d.cmd.toNat < 2 ^ p.commandBits.toNat ∧
    d.invCmd.toNat < 2 ^ d.bitIdx.toNat := by
  rw [sessionRegs_iff, hs, AddressReceived]
  constructor
  · simp +contextual
  · rintro ⟨hi, h, hc, hv⟩
    have hw := lt_width_of_partial hv hi
    simp_all

theorem sessionRegs_after (hs : d.stage = 6 ∨ d.stage = 7) : SessionRegs a p d ↔
    d.bitIdx = 0 ∧ AddressReceived p d ∧ CommandReceived a p d := by
  rw [sessionRegs_iff, AddressReceived, CommandReceived]
  obtain hs | hs := hs <;> rw [hs] <;> constructor <;> simp +contextual

/-! One step along the chain keeps the session invariant. -/

theorem SessionRegs.frameStarted (h : SessionRegs a p d) (hs : d.stage = 0) (t : Timestamp) :
    SessionRegs a p ((d.setSymbolStart t).setStage 1) :=
  (sessionRegs_before (.inr rfl)).mpr ((sessionRegs_before (.inl hs)).mp h)

theorem SessionRegs.startEnded (h : SessionRegs a p d) (hs : d.stage = 1) (hw : 0 < p.addressBits.toNat)
    (t : Timestamp) : SessionRegs a p ((d.setSymbolStart t).setStage 2) := by
  obtain ⟨hi, ha, hrest⟩ := (sessionRegs_before (.inr hs)).mp h
  refine (sessionRegs_addr rfl).mpr ⟨?_, ?_, hrest⟩
  · simpa [hi] using hw
  · simp [ha]

theorem SessionRegs.frameFinished (h : SessionRegs a p d) (hs : d.stage = 6) : SessionRegs a p (d.setStage 7) :=
  (sessionRegs_after (.inr rfl)).mpr ((sessionRegs_after (.inl hs)).mp h)

/-- A bit that does not end its field: the field has no bit at or above the new count. -/
theorem SessionRegs.bitTaken (h : SessionRegs a p d) {f : Field} (hs : d.stage = f.stage) {v : FieldWord} {n : Count}
    (t : Timestamp) (hv : v.toNat < 2 ^ n.toNat) (hn : n.toNat < (p.width f).toNat) :
    SessionRegs a p (((d.setField f v).setSymbolStart t).setBitIdx n) := by
  have hs' : (((d.setField f v).setSymbolStart t).setBitIdx n).stage = f.stage := by simpa using hs
  cases f with
  | addr =>
    obtain ⟨-, -, hrest⟩ := (sessionRegs_addr hs).mp h
    exact (sessionRegs_addr hs').mpr ⟨hn, hv, hrest⟩
  | addrInv =>
    obtain ⟨-, ha, -, hrest⟩ := (sessionRegs_addrInv hs).mp h
    exact (sessionRegs_addrInv hs').mpr ⟨hn, ha, hv, hrest⟩
  | cmd =>
    obtain ⟨-, haddr, -, hic⟩ := (sessionRegs_cmd hs).mp h
    exact (sessionRegs_cmd hs').mpr ⟨hn, haddr, hv, hic⟩
  | cmdInv =>
    obtain ⟨-, haddr, hc, -⟩ := (sessionRegs_cmdInv hs).mp h
    exact (sessionRegs_cmdInv hs').mpr ⟨hn, haddr, hc, hv⟩

/-- The bit that ends its field: the next field starts empty, and an inverse field that is asked for has been checked. -/
theorem SessionRegs.fieldEnded (h : SessionRegs a p d) {f : Field} (hs : d.stage = f.stage) {v : FieldWord}
    (t : Timestamp) (hv : v.toNat < 2 ^ (p.width f).toNat) (hc : f.Checked p d v)
    (hw : ∀ g, 1 ≤ (p.width g).toNat) :
    SessionRegs a p ((((d.setField f v).setSymbolStart t).setBitIdx 0).setStage (f.next a p)) := by
  have empty {w : FieldWord} (hz : w = 0) : w.toNat < 2 ^ (0 : Count).toNat := by simp [hz]
  have within {w : FieldWord} {n : Nat} (hz : w = 0) : w.toNat < 2 ^ n := by simp [hz]
  cases f with
  | addr =>
    obtain ⟨-, -, hia, hcmd, hic⟩ := (sessionRegs_addr hs).mp h
    cases hflag : p.addrVerifyInverse with
    | true =>
      have hnext : Field.next a p .addr = 3 := if_pos hflag
      rw [hnext]
      exact (sessionRegs_addrInv rfl).mpr ⟨hw .addr, hv, empty hia, hcmd, hic⟩
    | false =>
      have hnext : Field.next a p .addr = 4 := if_neg (by simp [hflag])
      rw [hnext]
      exact (sessionRegs_cmd rfl).mpr ⟨hw .cmd, ⟨hv, within hia, by simp [hflag]⟩, empty hcmd, hic⟩
  | addrInv =>
    obtain ⟨-, ha, -, hcmd, hic⟩ := (sessionRegs_addrInv hs).mp h
    exact (sessionRegs_cmd rfl).mpr ⟨hw .cmd, ⟨ha, hv, fun _ => hc⟩, empty hcmd, hic⟩
  | cmd =>
    obtain ⟨-, haddr, -, hic⟩ := (sessionRegs_cmd hs).mp h
    cases hflag : postCmdFlag a.postCmdSelect p with
    | true =>
      have hnext : Field.next a p .cmd = 5 := if_pos hflag
      rw [hnext]
      exact (sessionRegs_cmdInv rfl).mpr ⟨hw .cmd, haddr, hv, empty hic⟩
    | false =>
      have hnext : Field.next a p .cmd = 6 := if_neg (by simp [hflag])
      rw [hnext]
      exact (sessionRegs_after (.inl rfl)).mpr ⟨rfl, haddr, hv, within hic, by simp [hflag]⟩
  | cmdInv =>
    obtain ⟨-, haddr, hcmd, -⟩ := (sessionRegs_cmdInv hs).mp h
    exact (sessionRegs_after (.inl rfl)).mpr ⟨rfl, haddr, hcmd, hv, fun _ => hc⟩

/-- All registers 0 meet the invariants (R100, R240). -/
theorem sessionRegs_zero (a : Params) (p : ProtocolConfig) : SessionRegs a p DecoderState.zero :=
  (sessionRegs_before (.inl rfl)).mpr ⟨rfl, rfl, rfl, rfl, rfl⟩

end

/-- In the stage of a field, the field has no bit at or above `bit_idx`, and `bit_idx` is below the field's width. -/
theorem SessionRegs.field {a : Params} {p : ProtocolConfig} {d : DecoderState} (h : SessionRegs a p d) {f : Field}
    (hs : d.stage = f.stage) :
    (d.field f).toNat < 2 ^ d.bitIdx.toNat ∧ d.bitIdx.toNat < (p.width f).toNat := by
  obtain ⟨⟨-, ⟨haddr, hcmd, -⟩, -, ⟨h2, h3, h4, h5⟩, -⟩, -⟩ := h
  cases f with
  | addr => exact ⟨h2 hs, haddr (.inl hs)⟩
  | addrInv => exact ⟨h3 hs, haddr (.inr hs)⟩
  | cmd => exact ⟨h4 hs, hcmd (.inl hs)⟩
  | cmdInv => exact ⟨h5 hs, hcmd (.inr hs)⟩

/-- The accumulated value has no bit above the one just received, which has a place in the field. -/
theorem SessionRegs.accumulated {s : State} (h : SessionRegs s.params s.protocol s.regs) (ha : s.admitted = true)
    {f : Field} (hs : s.regs.stage = f.stage) (b : Bool) :
    (accumulated s.params.widths.wField f b s.regs).toNat < 2 ^ (s.regs.bitIdx.toNat + 1) ∧
    s.regs.bitIdx.toNat < (s.protocol.width f).toNat := by
  obtain ⟨hv, hi⟩ := h.field hs
  exact ⟨accumulated_lt hv (Nat.lt_of_lt_of_le hi ((bounds_of_admits ha).width f).2) s.params.widths.field_ok.2, hi⟩

/-- Every request keeps the invariants under the configuration it is presented with. A next state with a bit taken shows that
the configuration was admitted, so that the count fits its register. -/
theorem exec_keeps_sessionRegs {i : Instr} {s t : State} (hs : SessionRegs s.params s.protocol s.regs)
    (h : exec i s = .next t) : SessionRegs s.params s.protocol t.regs := by
  cases exec_transition h with
  | failed => exact hs
  | stayed => exact hs
  | initialised => exact sessionRegs_zero ..
  | frameStarted q _ hstage => exact hs.frameStarted hstage _
  | startEnded q _ ha hstage => exact hs.startEnded hstage (bounds_of_admits ha).addressBits_pos _
  | bitTaken f q b _ ha hstage he =>
    obtain ⟨hv, hi⟩ := hs.accumulated ha hstage b
    have hn : (nextBitIdx s).toNat = s.regs.bitIdx.toNat + 1 := by
      have hlt := (fits_of_admits ha).1 f
      have := (s.protocol.width f).isLt
      rw [(nextBitIdx_of_lt (by omega)).1, BitVec.toNat_add_of_lt (by simp; omega)]; rfl
    exact hs.bitTaken hstage _ (hn ▸ hv) (by omega)
  | fieldEnded f q b _ ha hstage he hc =>
    obtain ⟨hv, -⟩ := hs.accumulated ha hstage b
    exact hs.fieldEnded hstage _ (he ▸ hv) hc ((bounds_of_admits ha).width · |>.1)
  | frameFinished q hstage => exact hs.frameFinished hstage

/-- Settles O43, by the registers' part. -/
theorem everyStepKeepsTheSessionInvariant : Obligations.EveryStepKeepsTheSessionInvariant :=
  fun _ _ _ _ => step_keeps_session (P := fun a d => SessionRegs a _ d) fun _ _ _ hp hs hx => by
    subst hp; exact exec_keeps_sessionRegs hs hx

/-- Settles O44: power-on and INIT leave every register 0. -/
theorem sessionInvariantHoldsFromInit : Obligations.SessionInvariantHoldsFromInit := by
  refine fun p pl => ⟨fun a rs hrs => ⟨hrs, sessionRegs_zero a p⟩, fun s t hs h => ?_⟩
  obtain rfl : t = { recover s with response := some .ok } := returnOk_next.mp h
  exact ⟨hs, sessionRegs_zero s.params p⟩

/-- No step writes the parameters (R8). -/
theorem step_params {s t : State} (h : step s = .next t) : t.params = s.params := by
  obtain ⟨-, rfl⟩ | ⟨r, rest, i, -, -, hx⟩ := step_next h
  · rfl
  · obtain ⟨-, -, hparams, -⟩ := configurationIsReadOnly i _ t hx
    exact hparams

/-- Settles O45: the session invariant holds after INIT and every step keeps it, with the parameters. -/
theorem reachedStatesMeetTheInvariants : Obligations.ReachedStatesMeetTheInvariants := by
  intro p pl s t u n hs hinit hrun
  obtain ⟨-, -, hparams, -⟩ := configurationIsReadOnly .init s t hinit
  have ht : SessionInv p pl t := (sessionInvariantHoldsFromInit p pl).2 s t hs hinit
  have hu : SessionInv p pl u ∧ u.params = s.params :=
    run_keeps (P := fun v => SessionInv p pl v ∧ v.params = s.params)
      (fun v w ⟨hinv, hpar⟩ hw => ⟨everyStepKeepsTheSessionInvariant p pl v w hinv hw, (step_params hw).trans hpar⟩)
      n ⟨ht, hparams⟩ hrun
  obtain ⟨⟨-, hreach, -⟩, hparams⟩ := hu
  exact hparams ▸ hreach

end Sys2Proof.Machine
end

section
/-! PROOF. The memory family: instances share no storage, so a step of a fleet writes one place of it (R40, R60). -/

namespace Sys2Proof.Machine

/-- All that a step of a fleet can do: it puts at place `k` what instance `k` steps to. For a missing instance nothing is
asked of `t`, and `List.set` writes nothing. -/
theorem fleetStep_next {k : Nat} {f g : List State} :
    fleetStep k f = .next g ↔ ∃ t, (∀ s, f[k]? = some s → step s = .next t) ∧ g = f.set k t := by
  unfold fleetStep
  cases hk : f[k]? with
  | none =>
    have hset (t : State) : f.set k t = f := List.set_eq_of_length_le (List.getElem?_eq_none_iff.mp hk)
    have : Nonempty State := ⟨State.reset⟩
    simp [hset, eq_comm]
  | some s => cases hs : step s <;> simp [hs, eq_comm]

/-- Two steps of a fleet are performed when both are. -/
theorem fleetStepTwo_next {j k : Nat} {f g : List State} :
    fleetStepTwo j k f = .next g ↔ ∃ f', fleetStep j f = .next f' ∧ fleetStep k f' = .next g := by
  unfold fleetStepTwo
  cases fleetStep j f <;> simp

/-- The frame of a step of a fleet: the other instances are unchanged and instance `k` is as it would be alone. -/
theorem fleetStep_frame {k : Nat} {f g : List State} (h : fleetStep k f = .next g) :
    g.length = f.length ∧ (∀ m, m ≠ k → g[m]? = f[m]?) ∧
      ∀ s, f[k]? = some s → ∃ t, step s = .next t ∧ g[k]? = some t := by
  obtain ⟨t, ht, rfl⟩ := fleetStep_next.mp h
  refine ⟨List.length_set, fun m hm => List.getElem?_set_ne hm.symm, fun s hs => ⟨t, ht s hs, ?_⟩⟩
  exact List.getElem?_set_self (List.getElem?_eq_some_iff.mp hs).1

/-- Neither step writes the place the other reads, and the two writes commute. -/
theorem fleetStepTwo_comm {j k : Nat} {f g : List State} (hjk : j ≠ k) (h : fleetStepTwo j k f = .next g) :
    fleetStepTwo k j f = .next g := by
  obtain ⟨_, hj, hk⟩ := fleetStepTwo_next.mp h
  obtain ⟨t, ht, rfl⟩ := fleetStep_next.mp hj
  obtain ⟨u, hu, rfl⟩ := fleetStep_next.mp hk
  rw [List.getElem?_set_ne hjk] at hu
  have hj' : fleetStep j (f.set k u) = .next ((f.set j t).set k u) :=
    fleetStep_next.mpr ⟨t, by rwa [List.getElem?_set_ne hjk.symm], List.set_comm t u hjk⟩
  exact fleetStepTwo_next.mpr ⟨f.set k u, fleetStep_next.mpr ⟨u, hu, rfl⟩, hj'⟩

/-- Settles O41, by the frame of a step of a fleet and the commutation of two. -/
theorem instancesDoNotInteract : Obligations.InstancesDoNotInteract :=
  fun _ _ _ _ hjk => ⟨fleetStep_frame, fleetStepTwo_comm hjk⟩

end Sys2Proof.Machine
end

section
/-! PROOF. The encoding family: the fields of a request word add up to the word (R70, R72), the decoder's two levels (R71,
R77), and the result codes (R76). -/

namespace Sys2Proof

/-! ## A request word is its fields (R70, R72, R73, R79) -/

/-- The canonical INIT word as a literal (R73). -/
theorem encodeInit_eq : encodeInit = 0x100000000000000000#72 := by decide

theorem levelOfBit_eq_high_iff (b : Bool) : levelOfBit b = .high ↔ b = true := by
  cases b <;> decide

theorem sample_eq_high_iff (w : RequestWord) : (sampleArgsOf w).sample = .high ↔ w.toNat / 2 ^ 64 % 2 = 1 :=
  (levelOfBit_eq_high_iff _).trans (w.getLsbD_iff 64)

theorem timestamp_toNat (w : RequestWord) : (sampleArgsOf w).timestamp.toNat = w.toNat % 2 ^ 64 := by
  rw [sampleArgsOf, BitVec.extractLsb'_toNat, Nat.shiftRight_zero]

/-- The number in bits [67:0] of a SAMPLE word, from its operands (R70, R72). -/
def SampleArgs.value (q : SampleArgs) : Nat :=
  q.platPresent.toNat * 2 ^ 67 + q.protoPresent.toNat * 2 ^ 66 + q.statePresent.toNat * 2 ^ 65
    + q.sample.bit.toNat * 2 ^ 64 + q.timestamp.toNat

/-- One bit of the request word, as the number 0 or 1. -/
theorem RequestWord.getLsbD_toNat (w : RequestWord) (n : Nat) : (w.getLsbD n).toNat = w.toNat / 2 ^ n % 2 := by
  rw [← BitVec.testBit_toNat, Nat.toNat_testBit]

/-- The fields of R70 are all the bits there are. -/
theorem RequestWord.toNat_eq_fields (w : RequestWord) :
    w.toNat = (opField w).toNat * 2 ^ 68 + (sampleArgsOf w).value := by
  rw [SampleArgs.value, opField_toNat, timestamp_toNat]
  simp only [sampleArgsOf, bit_levelOfBit, RequestWord.getLsbD_toNat]
  omega

/-- A word is determined by its operation code and its operands. -/
theorem RequestWord.eq_of_fields {v w : RequestWord} (ho : opField v = opField w)
    (ha : sampleArgsOf v = sampleArgsOf w) : v = w := by
  apply BitVec.eq_of_toNat_eq
  rw [v.toNat_eq_fields, w.toNat_eq_fields, ho, ha]

theorem encodeSample_toNat (q : SampleArgs) : (encodeSample q).toNat = q.value := by
  simpa using (encodeSample q).toNat_eq_fields

/-- A SAMPLE word is the word of its operands. -/
theorem encodeSample_sampleArgsOf {w : RequestWord} (h : opField w = 0x0) : encodeSample (sampleArgsOf w) = w :=
  RequestWord.eq_of_fields (by rw [opField_encodeSample, h]) (sampleArgsOf_encodeSample _)

/-- Settles O10, by the value of the fields. -/
theorem canonicalSampleWordIsItsNumber : Obligations.CanonicalSampleWordIsItsNumber := by
  intro l t
  rw [Machine.sampleWord, encodeSample_toNat, SampleArgs.value]
  cases l <;> simp [Level.bit]

/-! ## The first level of the decoder: the operation code (R71, R74) -/

theorem decode_of_op_sample (stage : StageCode) {w : RequestWord} (h : w.toNat / 2 ^ 68 = 0) :
    decode stage w = .ok ((rowOfStage stage).instr (sampleArgsOf w)) :=
  if_pos ((opField_eq_sample_iff w).mpr h)

theorem decode_of_op_init (stage : StageCode) {w : RequestWord} (h : w.toNat / 2 ^ 68 = 1) :
    decode stage w = .ok .init := by
  simp [decode, (opField_eq_init_iff w).mpr h]

theorem decode_of_op_reserved (stage : StageCode) {w : RequestWord} (h : 2 ≤ w.toNat / 2 ^ 68) :
    decode stage w = .error (.reservedOp (BitVec.ofNat 4 (w.toNat / 2 ^ 68))) := by
  have h0 : opField w ≠ 0x0 := by rw [ne_eq, opField_eq_sample_iff]; omega
  have h1 : opField w ≠ 0x1 := by rw [ne_eq, opField_eq_init_iff]; omega
  rw [decode, if_neg h0, if_neg h1, ← opField_toNat, BitVec.ofNat_toNat, BitVec.setWidth_eq]

/-- What a word that decodes to a request can be. -/
theorem decode_ok {stage : StageCode} {w : RequestWord} {i : Instr} (h : decode stage w = .ok i) :
    (opField w = 0x0 ∧ i = (rowOfStage stage).instr (sampleArgsOf w)) ∨ (opField w = 0x1 ∧ i = .init) := by
  obtain ⟨h0, hd⟩ | ⟨h1, hd⟩ | ⟨-, -, hd⟩ := decode_cases stage w
  · exact .inl ⟨h0, Except.ok.inj (h.symm.trans hd)⟩
  · exact .inr ⟨h1, Except.ok.inj (h.symm.trans hd)⟩
  · rw [hd] at h; cases h

/-! ## The second level: the stage register (R75, R77) -/

/-- A request is INIT or the SAMPLE row of a stage class. -/
theorem Instr.eq_init_or_row (i : Instr) : i = .init ∨ ∃ (r : StageRow) (q : SampleArgs), i = r.instr q := by
  cases i with
  | init => exact .inl rfl
  | sampleIdle q => exact .inr ⟨.idle, q, rfl⟩
  | sampleStartSymbol q => exact .inr ⟨.startSymbol, q, rfl⟩
  | sampleAddr q => exact .inr ⟨.addr, q, rfl⟩
  | sampleAddrInv q => exact .inr ⟨.addrInv, q, rfl⟩
  | sampleCmd q => exact .inr ⟨.cmd, q, rfl⟩
  | sampleCmdInv q => exact .inr ⟨.cmdInv, q, rfl⟩
  | sampleStopSymbol q => exact .inr ⟨.stopSymbol, q, rfl⟩
  | sampleFinished q => exact .inr ⟨.finished, q, rfl⟩
  | sampleInvalidStage q => exact .inr ⟨.invalidStage, q, rfl⟩

theorem StageRow.instr_ne_init (r : StageRow) (q : SampleArgs) : r.instr q ≠ .init := by
  cases r <;> nofun

/-- A stage value selects the SAMPLE row of its class and no other. -/
theorem StageRow.instr_wf_iff (r : StageRow) (q : SampleArgs) (stage : StageCode) :
    (r.instr q).wf stage = true ↔ rowOfStage stage = r := by
  have code (n : StageCode) : (stage.toNat == n.toNat) = true ↔ stage = n := by rw [beq_iff_eq, BitVec.toNat_inj]
  cases r with
  | idle => exact (code 0).trans (rowOfStage_idle _).symm
  | startSymbol => exact (code 1).trans (rowOfStage_startSymbol _).symm
  | addr => exact (code 2).trans (rowOfStage_addr _).symm
  | addrInv => exact (code 3).trans (rowOfStage_addrInv _).symm
  | cmd => exact (code 4).trans (rowOfStage_cmd _).symm
  | cmdInv => exact (code 5).trans (rowOfStage_cmdInv _).symm
  | stopSymbol => exact (code 6).trans (rowOfStage_stopSymbol _).symm
  | finished => exact (code 7).trans (rowOfStage_finished _).symm
  | invalidStage => exact decide_eq_true_iff.trans (rowOfStage_invalidStage _).symm

/-- A SAMPLE word decodes to the row that the stage selects, with the word's operands. -/
theorem decode_of_wf {stage : StageCode} {w : RequestWord} {i : Instr} (h0 : w.toNat / 2 ^ 68 = 0)
    (hi : i.wf stage = true) (ha : i.args? = some (sampleArgsOf w)) : decode stage w = .ok i := by
  obtain rfl | ⟨r, q, rfl⟩ := i.eq_init_or_row
  · cases ha
  · obtain rfl : q = sampleArgsOf w := by simpa using ha
    rw [decode_of_op_sample stage h0, (r.instr_wf_iff _ stage).mp hi]

/-! ## Decoding and encoding (R70 to R77) -/

theorem decode_encodeInit (stage : StageCode) : decode stage encodeInit = .ok .init :=
  decode_of_op_init stage (by decide)

theorem decode_encodeSample (stage : StageCode) (q : SampleArgs) :
    decode stage (encodeSample q) = .ok ((rowOfStage stage).instr q) := by
  rw [decode, if_pos (opField_encodeSample q), sampleArgsOf_encodeSample]

/-- Settles O7: INIT needs no stage; a SAMPLE word brings its operands and the stage its row. -/
theorem decodeOfEncodeIsTheRequest : Obligations.DecodeOfEncodeIsTheRequest := by
  intro stage i hi
  obtain rfl | ⟨r, q, rfl⟩ := i.eq_init_or_row
  · exact decode_encodeInit stage
  · rw [encode_instr, decode_encodeSample, (r.instr_wf_iff q stage).mp hi]

/-- Settles O8: the word of a SAMPLE has no bits besides its operands. -/
theorem encodeOfDecodeIsTheWord : Obligations.EncodeOfDecodeIsTheWord := by
  intro stage w i hd
  obtain ⟨h0, rfl⟩ | ⟨-, rfl⟩ := decode_ok hd
  · refine ⟨(StageRow.instr_wf_iff ..).mpr rfl, fun _ => ?_, fun h => absurd h (StageRow.instr_ne_init _ _)⟩
    rw [encode_instr, encodeSample_sampleArgsOf h0]
  · exact ⟨rfl, nofun, fun _ => encodeInit_eq⟩

/-- Settles O5: a decoded SAMPLE has the operands of its word. -/
theorem sampleOperandsComeFromTheirBits : Obligations.SampleOperandsComeFromTheirBits := by
  intro stage w i q hd ha
  obtain ⟨-, rfl⟩ | ⟨-, rfl⟩ := decode_ok hd
  · obtain rfl : sampleArgsOf w = q := by simpa using ha
    exact ⟨timestamp_toNat w, sample_eq_high_iff w, statePresent_iff w, protoPresent_iff w, platPresent_iff w⟩
  · cases ha

/-- Settles O6, level by level. -/
theorem stageRegisterSelectsTheRow : Obligations.StageRegisterSelectsTheRow := by
  intro stage w
  refine ⟨decode_of_op_init stage, fun h => ⟨_, decode_of_op_reserved stage h⟩, fun h0 => ⟨sampleArgsOf w, ?_⟩⟩
  refine ⟨?idle, ?startSymbol, ?addr, ?addrInv, ?cmd, ?cmdInv, ?stopSymbol, ?finished, ?invalidStage⟩
  case invalidStage => exact fun h => decode_of_wf h0 (decide_eq_true h) rfl
  all_goals exact fun h => decode_of_wf h0 (beq_iff_eq.mpr h) rfl

/-- Settles O3: the low bits do not reach the operation code. -/
theorem initWordIgnoresLowBits : Obligations.InitWordIgnoresLowBits := by
  refine ⟨fun stage low hlow => decode_of_op_init stage ?_, encodeInit_eq⟩
  rw [BitVec.toNat_ofNat]
  omega

/-- Settles O4: the step refuses what the decoder rejects. -/
theorem opFieldSelectsTheOperation : Obligations.OpFieldSelectsTheOperation := by
  intro stage w
  refine ⟨fun h => ⟨_, _, decode_of_op_sample stage h, StageRow.instr_args _ _⟩, decode_of_op_init stage,
    fun h => ⟨decode_of_op_reserved stage h, ?_⟩⟩
  rintro s r rest hr rfl
  exact Machine.step_error hr (decode_of_op_reserved s.regs.stage h)

/-- Settles O9: the words are literals, so the decoder runs on each. -/
theorem writtenOutWordsDecode : Obligations.WrittenOutWordsDecode := by
  unfold Obligations.WrittenOutWordsDecode
  decide

end Sys2Proof

namespace Sys2Proof.Machine

/-! ## The result codes (R76) -/

/-- The results in the order of R76's table. -/
def Result.inCodeOrder : List Result :=
  [.ok, .error .nullState, .error .nullProtocol, .error .nullPlatform, .error .invalidStage, .error .pulseTooShort,
    .error .unexpectedLineHigh, .error .symbolPeriodTooLong, .error .inverseMismatch]

/-- The code of a result is its place in the table. -/
theorem Result.inCodeOrder_code (r : Result) : inCodeOrder[r.code.toNat]? = some r := by
  cases r with
  | ok => rfl
  | error k => cases k <;> rfl

theorem Result.code_le (r : Result) : r.code.toNat ≤ 8 :=
  Nat.le_of_lt_succ (List.getElem?_eq_some_iff.mp r.inCodeOrder_code).1

theorem Result.code_injective : Function.Injective Result.code := fun r u h =>
  Option.some.inj (by rw [← r.inCodeOrder_code, h, u.inCodeOrder_code])

/-- A request that answers a next state leaves its result in the response. -/
theorem exec_response {i : Instr} {s t : State} (h : exec i s = .next t) : ∃ r, t.response = some r := by
  obtain hr | ⟨k, hr, -⟩ := (exec_effect h).response
  · exact ⟨_, hr⟩
  · exact ⟨_, hr⟩

/-- Settles O39: the response holds a result, and the table gives each result a place of its own. -/
theorem everyResponseHasItsCode : Obligations.EveryResponseHasItsCode := by
  refine ⟨fun i s t h => ?_, rfl, fun _ _ h => Result.code_injective h⟩
  obtain ⟨r, hr⟩ := exec_response h
  exact ⟨r, hr, by rw [State.responseCode, hr, Option.map_some], r.code_le⟩

end Sys2Proof.Machine
end

section
/-! PROOF. The dispatch family: INIT (R100), the checks before every handler in their order (R101 to R107), and the stages
that no handler serves (R108, R109). -/

namespace Sys2Proof

/-- A request with operands is the SAMPLE row of a stage class. -/
theorem Instr.eq_row_of_args {i : Instr} {q : SampleArgs} (h : i.args? = some q) : ∃ r : StageRow, i = r.instr q := by
  obtain rfl | ⟨r, q', rfl⟩ := i.eq_init_or_row
  · cases h
  · obtain rfl : q' = q := by simpa using h
    exact ⟨r, rfl⟩

end Sys2Proof

namespace Sys2Proof.Machine

open Sys2Proof.Claims

/-! ## A SAMPLE is the dispatcher's checks before its row's handler (R101) -/

/-- What a SAMPLE of a stage class does once every check has passed (R101). -/
def rowHandler : StageRow → SampleArgs → State → Host.Outcome State Fault Refusal
  | .idle, q => handleIdle q.sample q.timestamp
  | .startSymbol, q => handleStartSymbol q.sample q.timestamp
  | .addr, q => handleAddr q.sample q.timestamp
  | .addrInv, q => handleAddrInv q.sample q.timestamp
  | .cmd, q => handleCmd q.sample q.timestamp
  | .cmdInv, q => handleCmdInv q.sample q.timestamp
  | .stopSymbol, q => handleStopSymbol q.sample q.timestamp
  | .finished, _ => finishedPolicy
  | .invalidStage, _ => raise .invalidStage

/-- Every row of SAMPLE goes through the one dispatcher. -/
theorem exec_row (r : StageRow) (q : SampleArgs) (s : State) :
    exec (r.instr q) s = sample r q (rowHandler r q) s := by
  cases r <;> rfl

/-- No row's handler refuses. -/
theorem rowHandler_total (r : StageRow) (q : SampleArgs) (s : State) : ∃ t, rowHandler r q s = .next t := by
  cases r with
  | idle => exact handleIdle_total ..
  | startSymbol => exact handleStartSymbol_total ..
  | addr => exact primaryField_total ..
  | addrInv => exact inverseField_total ..
  | cmd => exact primaryField_total ..
  | cmdInv => exact inverseField_total ..
  | stopSymbol => exact handleStopSymbol_total ..
  | finished => exact finishedPolicy_total s
  | invalidStage => exact ⟨_, rfl⟩

/-- A SAMPLE that passes every check, of the row that the stage selects, is its row's handler. -/
theorem exec_row_of_ready {r : StageRow} {q : SampleArgs} {s : State} (h : Ready q s)
    (hr : rowOfStage s.regs.stage = r) : exec (r.instr q) s = rowHandler r q s := by
  obtain ⟨hs, hp, hf, ha⟩ := h
  rw [exec_row, sample_of_ready hs hp hf ha hr]

/-! ## The null checks and admission (R102, R103, R104, R107) -/

section
variable (row : StageRow) {q : SampleArgs} (handler : State → Host.Outcome State Fault Refusal) (s : State)

theorem sample_nullState (hs : q.statePresent = false) : sample row q handler s = raise .nullState s :=
  if_pos hs

theorem sample_nullProtocol (hs : q.statePresent = true) (hp : q.protoPresent = false) :
    sample row q handler s = raise .nullProtocol s := by
  simp [sample, hs, hp]

theorem sample_nullPlatform (hs : q.statePresent = true) (hp : q.protoPresent = true) (hf : q.platPresent = false) :
    sample row q handler s = raise .nullPlatform s := by
  simp [sample, hs, hp, hf]

theorem sample_notAdmitted (hs : q.statePresent = true) (hp : q.protoPresent = true) (hf : q.platPresent = true)
    (ha : s.admitted = false) : sample row q handler s = .refused .configNotAdmitted := by
  simp [sample, hs, hp, hf, ha]

end

/-- Past the null checks, the admission check alone refuses a SAMPLE for its configuration: no handler does. -/
theorem exec_row_notAdmitted_iff {r : StageRow} {q : SampleArgs} {s : State} (hall : q.allPresent = true) :
    exec (r.instr q) s = .refused .configNotAdmitted ↔ s.admitted = false := by
  obtain ⟨hs, hp, hf⟩ := q.allPresent_iff.mp hall
  rw [exec_row]
  refine ⟨fun h => ?_, sample_notAdmitted r _ s hs hp hf⟩
  obtain ⟨-, -, -, ⟨ha, -⟩ | ⟨-, -, he⟩ | ⟨-, -, hh⟩⟩ := sample_refused h
  · exact ha
  · cases he
  · obtain ⟨t, ht⟩ := rowHandler_total r q s
    rw [ht] at hh; cases hh

/-- Settles O15: the admission check is the nine checks, on values that fit. -/
theorem admissionIsTheNineChecks : Obligations.AdmissionIsTheNineChecks := by
  intro i q s hi hall
  obtain ⟨r, rfl⟩ := Instr.eq_row_of_args hi
  rw [exec_row_notAdmitted_iff hall, ← Bool.not_eq_true, State.admitted, admits_iff]

/-- Settles O14: every row goes through the dispatcher, which checks the references first. -/
theorem nullChecksComeFirst : Obligations.NullChecksComeFirst := by
  intro i q s hi
  obtain ⟨r, rfl⟩ := Instr.eq_row_of_args hi
  rw [exec_row]
  exact ⟨sample_nullState r _ s, sample_nullProtocol r _ s, sample_nullPlatform r _ s⟩

/-! ## INIT (R100) -/

/-- Settles O2: INIT is `Ok` after recovery, with no check before it, and the decoder reads no more than its operation
code. -/
theorem initZeroesEveryRegister : Obligations.InitZeroesEveryRegister :=
  ⟨fun s => returnOk_next (s := recover s).mpr rfl, fun stage _ => decode_of_op_init stage⟩

/-! ## The stages that no handler serves (R108, R109) -/

theorem finishedPolicy_absorb {s : State} (h : s.params.finishedPolicy = .absorb) : finishedPolicy s = returnOk s := by
  simp only [finishedPolicy, h]

theorem finishedPolicy_invalidStage {s : State} (h : s.params.finishedPolicy = .invalidStage) :
    finishedPolicy s = raise .invalidStage s := by
  simp only [finishedPolicy, h]

/-- At `Finished` a SAMPLE that passes every check is decided by the policy. -/
theorem exec_sampleFinished_of_ready {q : SampleArgs} {s : State} (h : Ready q s) (hs : s.regs.stage = 7) :
    exec (.sampleFinished q) s = finishedPolicy s :=
  exec_row_of_ready (r := .finished) h ((rowOfStage_finished _).mpr hs)

/-- Settles O17: each policy answers by its own equation. -/
theorem finishedIsDecidedByItsPolicy : Obligations.FinishedIsDecidedByItsPolicy := by
  intro q s h hs
  rw [exec_sampleFinished_of_ready h hs]
  exact ⟨finishedPolicy_absorb, finishedPolicy_invalidStage⟩

/-- Settles O16: a stage value above 7 selects the illegal row; 7 selects `Finished`, where O17 decides. -/
theorem illegalStageFails : Obligations.IllegalStageFails := by
  intro q s h
  refine ⟨fun hs => ?_, fun hs => ?_⟩
  · exact exec_row_of_ready (r := .invalidStage) h ((rowOfStage_invalidStage _).mpr hs)
  · exact (finishedIsDecidedByItsPolicy q s h (BitVec.eq_of_toNat_eq hs)).1

end Sys2Proof.Machine
end

section
/-! PROOF. The classifier family: the seven bands of the data classifier (R133), what is past the last band of every stage
(R130, R131, R141), and the parameters that a canonical configuration makes irrelevant (R132, R170). -/

namespace Sys2Proof.Machine

open Sys2Proof.Claims

/-! ## The bands of the data classifier (R132, R133) -/

/-- `sbit` is 1 only under `BY_PERIOD`, when the zero period is not the shorter one (R132). -/
theorem shorterBit_eq (c : BitAssign) (p : ProtocolConfig) :
    shorterBit c p = decide (c = .byPeriod ∧ ¬ p.zeroPeriod.toNat < p.onePeriod.toNat) := by
  cases c with
  | byPeriod => simp only [shorterBit, true_and, decide_not]
  | upstreamFixed => rfl

/-- Settles O18: each clause is one path through the chain of tests, with the bounds of R131 as numbers. -/
theorem dataClassifierHasSevenBands : Obligations.DataClassifierHasSevenBands := by
  intro c p pl e l
  simp only [classifyData, lo, hi, shorter_toNat, longer_toNat, shorterBit_eq]
  refine ⟨fun h₁ => ?_, fun h₁ h₂ => ?_, fun h₁ h₂ h₃ => ?_, fun h₁ h₂ h₃ h₄ => ?_, fun h₁ h₂ h₃ h₄ h₅ => ?_,
    fun h₁ h₂ h₃ h₄ h₅ h₆ => ?_, fun h₁ h₂ h₃ h₄ h₅ h₆ => ?_⟩
  · rw [if_pos h₁]; cases l <;> rfl
  · rw [if_neg h₁.not_gt, if_pos h₂]
  · rw [if_neg h₁.not_gt, if_neg h₂.not_ge, if_pos h₃]; cases l <;> rfl
  · rw [if_neg h₁.not_gt, if_neg h₂.not_ge, if_neg h₃.not_gt, if_pos h₄]; cases l <;> rfl
  · rw [if_neg h₁.not_gt, if_neg h₂.not_ge, if_neg h₃.not_gt, if_neg h₄.not_ge, if_pos h₅]; cases l <;> rfl
  · rw [if_neg h₁.not_gt, if_neg h₂.not_ge, if_neg h₃.not_gt, if_neg h₄.not_ge, if_neg h₅.not_gt, if_pos h₆]
    cases l <;> rfl
  · rw [if_neg h₁.not_gt, if_neg h₂.not_ge, if_neg h₃.not_gt, if_neg h₄.not_ge, if_neg h₅.not_gt, if_neg h₆.not_ge]

/-! ## What a handler answers when its classifier has decided (R166 to R172) -/

section
variable {l : Level} {t : Timestamp} {s : State} {k : ErrorKind}

theorem handleStartSymbol_of_errs (h : classifyStart s.protocol s.platform (elapsed t s.regs) l = .errs k) :
    handleStartSymbol l t s = raise k s := by
  simp only [handleStartSymbol, h]

theorem handleStopSymbol_of_errs
    (h : classifyStop s.params.stopLateLow s.protocol s.platform (elapsed t s.regs) l = .errs k) :
    handleStopSymbol l t s = raise k s := by
  simp only [handleStopSymbol, h]

theorem handleStopSymbol_of_completes
    (h : classifyStop s.params.stopLateLow s.protocol s.platform (elapsed t s.regs) l = .completes ()) :
    handleStopSymbol l t s = returnOk { s with regs := s.regs.setStage 7 } := by
  simp only [handleStopSymbol, h]

theorem primaryField_of_errs (f : Field) (nxt : StageCode)
    (h : classifyData s.params.bitAssign s.protocol s.platform (elapsed t s.regs) l = .errs k) :
    primaryField f nxt l t s = raise k s := by
  simp only [primaryField, h]

theorem inverseField_of_errs (f : Field) (nxt : StageCode) (v : FieldWord)
    (h : classifyData s.params.bitAssign s.protocol s.platform (elapsed t s.regs) l = .errs k) :
    inverseField f nxt v l t s = raise k s := by
  simp only [inverseField, h]

end

/-! ## Past every band (R130, R131, R141) -/

/-- A timestamp before the symbol start gives an elapsed time short of 2^64 by as much (R130, R141). -/
theorem elapsed_of_lt {t : Timestamp} {d : DecoderState} (h : t.toNat < d.symbolStart.toNat) :
    elapsed t d = 2 ^ 64 - (d.symbolStart.toNat - t.toNat) := by
  rw [elapsed, BitVec.toNat_sub]
  omega

/-- A timestamp before the symbol start by at most `2^64 - 2^(W_DUR+1)` gives an elapsed time above every `hi` of R131 whose
duration and tolerance fit `W_DUR` bits. -/
theorem hi_lt_elapsed_of_decreasing {w : Widths} {t : Timestamp} {d : DecoderState} {exp : Duration} {pl : PlatformConfig}
    (h : t.toNat < d.symbolStart.toNat) (h' : d.symbolStart.toNat ≤ t.toNat + (2 ^ 64 - 2 ^ (w.wDur + 1)))
    (hexp : exp.toNat < 2 ^ w.wDur) (htol : pl.tolerance.toNat < 2 ^ w.wDur) :
    hi exp pl < elapsed t d := by
  have hw : 2 ^ (w.wDur + 1) ≤ 2 ^ 64 := Nat.pow_le_pow_right (by decide) (by have := w.dur_ok; omega)
  rw [hi, elapsed_of_lt h]
  rw [Nat.pow_succ] at h' hw
  omega

/-- Settles O36: such an elapsed time is past the last band of every stage that measures. -/
theorem decreasingTimestampIsPastEveryBand : Obligations.DecreasingTimestampIsPastEveryBand := by
  intro q s hq hlt hle
  have ⟨_, _, _, hadm⟩ := hq
  have hb := bounds_of_admits hadm
  obtain ⟨-, -, hperiod, hstop, -, -, hlong, htol⟩ := fits_of_admits hadm
  have past {exp : Duration} (hexp : exp.toNat < 2 ^ s.params.widths.wDur) :
      exp.toNat + s.platform.tolerance.toNat < elapsed q.timestamp s.regs :=
    hi_lt_elapsed_of_decreasing hlt hle hexp htol
  have hstart := classifyStart_past (l := q.sample) hb (past hperiod)
  have hdata := classifyData_past (c := s.params.bitAssign) (l := q.sample) hb (past hlong)
  have hlate := classifyStop_past (a := s.params.stopLateLow) (l := q.sample) (past hstop)
  refine ⟨fun hs => ?startSymbol, fun hs => ?addr, fun hs => ?addrInv, fun hs => ?cmd, fun hs => ?cmdInv,
    fun hs hl => ?stopHigh, fun hs hl hp => ?stopLow, fun hs hl hp => ?stopFinish⟩
  case startSymbol =>
    exact (exec_row_of_ready hq ((rowOfStage_startSymbol _).mpr hs)).trans (handleStartSymbol_of_errs hstart)
  case addr => exact (exec_row_of_ready hq ((rowOfStage_addr _).mpr hs)).trans (primaryField_of_errs _ _ hdata)
  case addrInv => exact (exec_row_of_ready hq ((rowOfStage_addrInv _).mpr hs)).trans (inverseField_of_errs _ _ _ hdata)
  case cmd => exact (exec_row_of_ready hq ((rowOfStage_cmd _).mpr hs)).trans (primaryField_of_errs _ _ hdata)
  case cmdInv => exact (exec_row_of_ready hq ((rowOfStage_cmdInv _).mpr hs)).trans (inverseField_of_errs _ _ _ hdata)
  all_goals refine (exec_row_of_ready hq ((rowOfStage_stopSymbol _).mpr hs)).trans ?_
  case stopHigh => exact handleStopSymbol_of_errs (hlate.trans (by rw [hl]))
  case stopLow => exact handleStopSymbol_of_errs (hlate.trans (by rw [hl, hp]; rfl))
  case stopFinish => exact handleStopSymbol_of_completes (hlate.trans (by rw [hl, hp]; rfl))

/-! ## Parameters that a configuration makes irrelevant (R132, R170) -/

/-- The state under other parameters. -/
def State.withParams (a : Params) (s : State) : State := { s with params := a }

/-- The answer under other parameters: they stand in the next state, if there is one. -/
def answerWithParams (a : Params) : Host.Outcome State Fault Refusal → Host.Outcome State Fault Refusal
  | .next t => .next (t.withParams a)
  | .fault f => .fault f
  | .refused r => .refused r

/-- The parameters `a` say the same as those of `s` about the configuration on its port: they may differ in `BIT_ASSIGN` and
`POST_CMD_SELECT`, if these name the same bit (R132) and the same flag value (R170). -/
structure SaysTheSame (a : Params) (s : State) : Prop where
  widths         : a.widths = s.params.widths
  stopLateLow    : a.stopLateLow = s.params.stopLateLow
  finishedPolicy : a.finishedPolicy = s.params.finishedPolicy
  inverseSupport : a.inverseSupport = s.params.inverseSupport
  shorterBit     : shorterBit a.bitAssign s.protocol = shorterBit s.params.bitAssign s.protocol
  postCmdFlag    : postCmdFlag a.postCmdSelect s.protocol = postCmdFlag s.params.postCmdSelect s.protocol

/-- The data classifier reads `BIT_ASSIGN` through the bit of the shorter period alone. -/
theorem classifyData_congr {c c' : BitAssign} {p : ProtocolConfig} (h : shorterBit c p = shorterBit c' p)
    (pl : PlatformConfig) (e : Nat) (l : Level) : classifyData c p pl e l = classifyData c' p pl e l := by
  simp only [classifyData, h]

/-- Where the zero period is the shorter one, its bit is 0 under both values of `BIT_ASSIGN` (R132). -/
theorem shorterBit_of_lt {p : ProtocolConfig} (h : p.zeroPeriod.toNat < p.onePeriod.toNat) (c : BitAssign) :
    shorterBit c p = false := by
  simp [shorterBit_eq, h]

/-- Where the verify flags are equal, `POST_CMD_SELECT` names the same value (R170). -/
theorem postCmdFlag_of_eq {p : ProtocolConfig} (h : p.addrVerifyInverse = p.cmdVerifyInverse) (c : PostCmdSelect) :
    postCmdFlag c p = p.cmdVerifyInverse := by
  cases c with
  | cmdFlag => rfl
  | addrFlag => exact h

section
variable {a : Params} {s : State}

@[simp] theorem withParams_regs : (s.withParams a).regs = s.regs := rfl
@[simp] theorem withParams_protocol : (s.withParams a).protocol = s.protocol := rfl
@[simp] theorem withParams_platform : (s.withParams a).platform = s.platform := rfl
@[simp] theorem withParams_params : (s.withParams a).params = a := rfl
@[simp] theorem withParams_draws : (s.withParams a).draws = s.draws := rfl

theorem returnOk_withParams : returnOk (s.withParams a) = answerWithParams a (returnOk s) := rfl

theorem raise_withParams (k : ErrorKind) : raise k (s.withParams a) = answerWithParams a (raise k s) := rfl

theorem fieldEnds_withParams (f : Field) : fieldEnds f (s.withParams a) = fieldEnds f s := rfl

theorem SaysTheSame.admitted (h : SaysTheSame a s) : (s.withParams a).admitted = s.admitted := by
  rw [Bool.eq_iff_iff]
  simp only [State.admitted, admits_iff, NineChecks, withParams_protocol, withParams_platform, withParams_params, h.widths,
    h.inverseSupport]

theorem SaysTheSame.classifyData (h : SaysTheSame a s) (e : Nat) (l : Level) :
    classifyData a.bitAssign s.protocol s.platform e l =
      classifyData s.params.bitAssign s.protocol s.platform e l :=
  classifyData_congr h.shorterBit ..

theorem SaysTheSame.inverseMatches (h : SaysTheSame a s) (f : Field) (v : FieldWord) (b : Bool) :
    inverseMatches f v b (s.withParams a) = inverseMatches f v b s := by
  simp [Machine.inverseMatches, h.widths]

theorem SaysTheSame.nextBitIdx (h : SaysTheSame a s) : nextBitIdx (s.withParams a) = nextBitIdx s := by
  rw [Machine.nextBitIdx, Machine.nextBitIdx, incrementFits, incrementFits, withParams_params, h.widths]; rfl

theorem SaysTheSame.nextDraws (h : SaysTheSame a s) : nextDraws (s.withParams a) = nextDraws s := by
  rw [Machine.nextDraws, Machine.nextDraws, incrementFits, incrementFits, withParams_params, h.widths]; rfl

theorem SaysTheSame.accumulate (h : SaysTheSame a s) (f : Field) (nxt : StageCode) (b : Bool) (t : Timestamp) :
    accumulate f nxt b t (s.withParams a) = (accumulate f nxt b t s).withParams a := by
  cases he : fieldEnds f s
  · rw [accumulate_of_not_ends he, accumulate_of_not_ends ((fieldEnds_withParams f).trans he), h.nextBitIdx, h.nextDraws,
      withParams_params, h.widths]
    rfl
  · rw [accumulate_of_ends he, accumulate_of_ends ((fieldEnds_withParams f).trans he), withParams_params, h.widths]
    rfl

/-- The checks of the dispatcher read no other parameter than admission does (R101, R107). -/
theorem SaysTheSame.sample (h : SaysTheSame a s) (row : StageRow) (q : SampleArgs)
    {handler : State → Host.Outcome State Fault Refusal}
    (hh : handler (s.withParams a) = answerWithParams a (handler s)) :
    sample row q handler (s.withParams a) = answerWithParams a (sample row q handler s) := by
  simp only [Machine.sample, h.admitted, withParams_regs, hh, raise_withParams, apply_ite (answerWithParams a)]
  rfl

theorem SaysTheSame.primaryField (h : SaysTheSame a s) (f : Field) (nxt : StageCode) (l : Level) (t : Timestamp) :
    primaryField f nxt l t (s.withParams a) = answerWithParams a (primaryField f nxt l t s) := by
  simp only [Machine.primaryField, withParams_regs, withParams_protocol, withParams_platform, withParams_params,
    h.classifyData, h.accumulate]
  split <;> rfl

theorem SaysTheSame.inverseField (h : SaysTheSame a s) (f : Field) (nxt : StageCode) (v : FieldWord) (l : Level)
    (t : Timestamp) : inverseField f nxt v l t (s.withParams a) = answerWithParams a (inverseField f nxt v l t s) := by
  simp only [Machine.inverseField, withParams_regs, withParams_protocol, withParams_platform, withParams_params,
    h.classifyData, h.accumulate, h.inverseMatches, fieldEnds_withParams]
  split
  · rfl
  · rfl
  · split <;> rfl

theorem SaysTheSame.handleStopSymbol (h : SaysTheSame a s) (l : Level) (t : Timestamp) :
    handleStopSymbol l t (s.withParams a) = answerWithParams a (handleStopSymbol l t s) := by
  simp only [Machine.handleStopSymbol, withParams_regs, withParams_protocol, withParams_platform, withParams_params,
    h.stopLateLow]
  split <;> rfl

theorem finishedPolicy_withParams (h : SaysTheSame a s) :
    finishedPolicy (s.withParams a) = answerWithParams a (finishedPolicy s) := by
  simp only [Machine.finishedPolicy, withParams_params, h.finishedPolicy]
  split <;> rfl

theorem handleIdle_withParams (l : Level) (t : Timestamp) :
    handleIdle l t (s.withParams a) = answerWithParams a (handleIdle l t s) := by
  cases l <;> rfl

theorem handleStartSymbol_withParams (l : Level) (t : Timestamp) :
    handleStartSymbol l t (s.withParams a) = answerWithParams a (handleStartSymbol l t s) := by
  simp only [handleStartSymbol, withParams_regs, withParams_protocol, withParams_platform]
  split <;> rfl

theorem SaysTheSame.handleCmd (h : SaysTheSame a s) (l : Level) (t : Timestamp) :
    handleCmd l t (s.withParams a) = answerWithParams a (handleCmd l t s) := by
  simp only [Machine.handleCmd, withParams_protocol, withParams_params, nextAfterCmd, h.postCmdFlag, h.primaryField]

/-- Parameters that say the same give every request the same answer. -/
theorem SaysTheSame.exec (h : SaysTheSame a s) (i : Instr) : exec i (s.withParams a) = answerWithParams a (exec i s) := by
  obtain rfl | ⟨r, q, rfl⟩ := i.eq_init_or_row
  · rfl
  · rw [exec_row, exec_row]
    refine h.sample r q ?_
    cases r with
    | idle => exact handleIdle_withParams ..
    | startSymbol => exact handleStartSymbol_withParams ..
    | addr => exact h.primaryField ..
    | addrInv => exact h.inverseField ..
    | cmd => exact h.handleCmd ..
    | cmdInv => exact h.inverseField ..
    | stopSymbol => exact h.handleStopSymbol ..
    | finished => exact finishedPolicy_withParams h
    | invalidStage => rfl

/-- The same of a request that answers a next state. -/
theorem SaysTheSame.exec_next (h : SaysTheSame a s) {i : Instr} {t : State} (ht : Machine.exec i s = .next t) :
    Machine.exec i (s.withParams a) = .next (t.withParams a) := by
  rw [h.exec, ht]; rfl

end

/-- Settles O37: on such a configuration the other value says the same, and no request writes the parameters. -/
theorem parametersAgreeOnCanonicalConfigurations : Obligations.ParametersAgreeOnCanonicalConfigurations := by
  intro i s t ht
  obtain ⟨-, -, hparams, -⟩ := configurationIsReadOnly i s t ht
  rw [hparams]
  refine ⟨fun hlt c => ?bitAssign, fun heq c => ?postCmdSelect⟩
  case bitAssign =>
    have h : SaysTheSame { s.params with bitAssign := c } s :=
      ⟨rfl, rfl, rfl, rfl, by rw [shorterBit_of_lt hlt, shorterBit_of_lt hlt], rfl⟩
    exact h.exec_next ht
  case postCmdSelect =>
    have h : SaysTheSame { s.params with postCmdSelect := c } s :=
      ⟨rfl, rfl, rfl, rfl, rfl, by rw [postCmdFlag_of_eq heq, postCmdFlag_of_eq heq]⟩
    exact h.exec_next ht

end Sys2Proof.Machine
end

section
/-! PROOF. The stage handler family, first part: one request at a stage. The symbol stages by their bands (R160, R166,
R172), the field stages by what the data classifier says (R161 to R171), and the inverse stages under `REJECT_CONFIG`
(R174). -/

namespace Sys2Proof.Machine

open Sys2Proof.Safety Sys2Proof.Claims

theorem admitted_of_ready {q : SampleArgs} {s : State} (h : Ready q s) : s.admitted = true := by
  obtain ⟨-, -, -, ha⟩ := h
  exact ha

/-- An admitted field is no wider than a field register can be (R8, A1, A2). -/
theorem width_le_of_admits {a : Params} {p : ProtocolConfig} {pl : PlatformConfig} (ha : admits a p pl = true)
    (f : Field) : (p.width f).toNat ≤ 255 :=
  ((bounds_of_admits ha).width f).2.trans a.widths.field_ok.2

/-! ## The symbol stages (R160, R166, R172) -/

section
variable {l : Level} {t : Timestamp} {s : State}

theorem handleStartSymbol_of_continues (h : classifyStart s.protocol s.platform (elapsed t s.regs) l = .continues) :
    handleStartSymbol l t s = returnOk s := by
  simp only [handleStartSymbol, h]

theorem handleStartSymbol_of_completes (h : classifyStart s.protocol s.platform (elapsed t s.regs) l = .completes ()) :
    handleStartSymbol l t s = returnOk { s with regs := (s.regs.setSymbolStart t).setStage 2 } := by
  simp only [handleStartSymbol, h]

theorem handleStopSymbol_of_continues
    (h : classifyStop s.params.stopLateLow s.protocol s.platform (elapsed t s.regs) l = .continues) :
    handleStopSymbol l t s = returnOk s := by
  simp only [handleStopSymbol, h]

end

/-- Settles O19: the handler asks for the level alone. -/
theorem idleStartsAFrameOnTheFirstHigh : Obligations.IdleStartsAFrameOnTheFirstHigh := by
  intro q s hq hs
  have he : exec (.sampleIdle q) s = handleIdle q.sample q.timestamp s :=
    exec_row_of_ready hq ((rowOfStage_idle _).mpr hs)
  rw [he]
  exact ⟨fun hl => by rw [hl]; rfl, fun hl => by rw [hl]; rfl⟩

/-- Settles O20, band by band. -/
theorem startSymbolFollowsItsBands : Obligations.StartSymbolFollowsItsBands := by
  intro q s hq hs
  have hb := bounds_of_admits (admitted_of_ready hq)
  have he : exec (.sampleStartSymbol q) s = handleStartSymbol q.sample q.timestamp s :=
    exec_row_of_ready hq ((rowOfStage_startSymbol _).mpr hs)
  rw [he]
  refine ⟨fun h hl => ?earlyLow, fun h hl => ?earlyHigh, fun h h' => ?mark, fun h h' hl => ?spaceHigh,
    fun h h' hl => ?spaceLow, fun h h' hl => ?periodHigh, fun h h' hl => ?periodLow, fun h => ?past⟩
  case earlyLow => exact handleStartSymbol_of_errs ((classifyStart_before h).trans (by rw [hl]))
  case earlyHigh => exact handleStartSymbol_of_continues ((classifyStart_before h).trans (by rw [hl]))
  case mark => exact handleStartSymbol_of_continues (classifyStart_mark h h')
  case spaceHigh => exact handleStartSymbol_of_errs ((classifyStart_space h h').trans (by rw [hl]))
  case spaceLow => exact handleStartSymbol_of_continues ((classifyStart_space h h').trans (by rw [hl]))
  case periodHigh => exact handleStartSymbol_of_completes ((classifyStart_period hb h h').trans (by rw [hl]))
  case periodLow => exact handleStartSymbol_of_continues ((classifyStart_period hb h h').trans (by rw [hl]))
  case past => exact handleStartSymbol_of_errs (classifyStart_past hb h)

/-- Settles O21, band by band: a high sample continues before and in the band alike. -/
theorem stopSymbolFollowsItsBand : Obligations.StopSymbolFollowsItsBand := by
  intro q s hq hs
  have he : exec (.sampleStopSymbol q) s = handleStopSymbol q.sample q.timestamp s :=
    exec_row_of_ready hq ((rowOfStage_stopSymbol _).mpr hs)
  rw [he]
  refine ⟨fun h hl => ?earlyLow, fun h hl => ?high, fun h h' hl => ?markLow, fun h hl => ?lateHigh,
    fun h hl hp => ?lateLow, fun h hl hp => ?lateFinish⟩
  case earlyLow => exact handleStopSymbol_of_errs ((classifyStop_before h).trans (by rw [hl]))
  case high =>
    refine handleStopSymbol_of_continues ?_
    by_cases hlt : elapsed q.timestamp s.regs + s.platform.tolerance.toNat < s.protocol.stopPulse.toNat
    · exact (classifyStop_before hlt).trans (by rw [hl])
    · exact (classifyStop_mark (Nat.le_of_not_lt hlt) h).trans (by rw [hl])
  case markLow => exact handleStopSymbol_of_completes ((classifyStop_mark h h').trans (by rw [hl]))
  case lateHigh => exact handleStopSymbol_of_errs ((classifyStop_past h).trans (by rw [hl]))
  case lateLow => exact handleStopSymbol_of_errs ((classifyStop_past h).trans (by rw [hl, hp]; rfl))
  case lateFinish => exact handleStopSymbol_of_completes ((classifyStop_past h).trans (by rw [hl, hp]; rfl))

/-! ## The field stages (R161 to R171) -/

/-- The stage class in which a field arrives (R77). -/
def Field.row : Field → StageRow
  | .addr => .addr
  | .addrInv => .addrInv
  | .cmd => .cmd
  | .cmdInv => .cmdInv

theorem Field.rowOfStage_stage (f : Field) : rowOfStage f.stage = f.row := by cases f <;> rfl

theorem Field.row_instr (f : Field) (q : SampleArgs) : f.row.instr q = f.instr q := by cases f <;> rfl

section
variable {f : Field} {nxt : StageCode} {v : FieldWord} {l : Level} {t : Timestamp} {s : State} {b : Bool}

theorem primaryField_of_continues
    (h : classifyData s.params.bitAssign s.protocol s.platform (elapsed t s.regs) l = .continues) :
    primaryField f nxt l t s = returnOk s := by
  simp only [primaryField, h]

theorem primaryField_of_completes
    (h : classifyData s.params.bitAssign s.protocol s.platform (elapsed t s.regs) l = .completes b) :
    primaryField f nxt l t s = returnOk (accumulate f nxt b t s) := by
  simp only [primaryField, h]

theorem inverseField_of_continues
    (h : classifyData s.params.bitAssign s.protocol s.platform (elapsed t s.regs) l = .continues) :
    inverseField f nxt v l t s = returnOk s := by
  simp only [inverseField, h]

/-- A data bit that does not end its inverse field, or ends it with the complement, is accepted. -/
theorem inverseField_of_completes
    (h : classifyData s.params.bitAssign s.protocol s.platform (elapsed t s.regs) l = .completes b)
    (hc : fieldEnds f s = true → inverseMatches f v b s = true) :
    inverseField f nxt v l t s = returnOk (accumulate f nxt b t s) := by
  have hno : (fieldEnds f s && !inverseMatches f v b s) = false := by
    cases he : fieldEnds f s
    · rfl
    · rw [hc he]; rfl
  simp only [inverseField, h, hno, Bool.false_eq_true, if_false]

/-- A data bit that ends its inverse field with anything else fails (R165). -/
theorem inverseField_of_mismatch
    (h : classifyData s.params.bitAssign s.protocol s.platform (elapsed t s.regs) l = .completes b)
    (he : fieldEnds f s = true) (hc : inverseMatches f v b s = false) :
    inverseField f nxt v l t s = raise .inverseMismatch s := by
  simp only [inverseField, h, he, hc, Bool.not_false, Bool.and_self, if_true]

end

section
variable {f : Field} {q : SampleArgs} {s : State} {b : Bool} {k : ErrorKind}

theorem rowHandler_field_of_errs (h : dataOutcome q s = .errs k) : rowHandler f.row q s = raise k s := by
  cases f with
  | addr => exact primaryField_of_errs _ _ h
  | addrInv => exact inverseField_of_errs _ _ _ h
  | cmd => exact primaryField_of_errs _ _ h
  | cmdInv => exact inverseField_of_errs _ _ _ h

theorem rowHandler_field_of_continues (h : dataOutcome q s = .continues) : rowHandler f.row q s = returnOk s := by
  cases f with
  | addr => exact primaryField_of_continues h
  | addrInv => exact inverseField_of_continues h
  | cmd => exact primaryField_of_continues h
  | cmdInv => exact inverseField_of_continues h

/-- A data bit is accepted unless it ends its field with a value that fails the field's check. -/
theorem rowHandler_field_of_completes (h : dataOutcome q s = .completes b)
    (hc : fieldEnds f s = true → f.Checked s.protocol s.regs (accumulated s.params.widths.wField f b s.regs)) :
    rowHandler f.row q s = returnOk (accumulate f (f.next s.params s.protocol) b q.timestamp s) := by
  cases f with
  | addr => exact primaryField_of_completes h
  | addrInv => exact inverseField_of_completes h fun he => inverseMatches_iff.mpr (hc he)
  | cmd => exact primaryField_of_completes h
  | cmdInv => exact inverseField_of_completes h fun he => inverseMatches_iff.mpr (hc he)

/-- A value that fails the check at the field's end is an inverse mismatch: the primary fields have no check. -/
theorem rowHandler_field_of_mismatch (h : dataOutcome q s = .completes b) (he : fieldEnds f s = true)
    (hc : ¬ f.Checked s.protocol s.regs (accumulated s.params.widths.wField f b s.regs)) :
    rowHandler f.row q s = raise .inverseMismatch s := by
  cases f with
  | addr => exact absurd trivial hc
  | addrInv => exact inverseField_of_mismatch h he (Bool.eq_false_iff.mpr (mt inverseMatches_iff.mp hc))
  | cmd => exact absurd trivial hc
  | cmdInv => exact inverseField_of_mismatch h he (Bool.eq_false_iff.mpr (mt inverseMatches_iff.mp hc))

theorem exec_field_of_ready (hq : Ready q s) (hs : s.regs.stage = f.stage) :
    exec (f.instr q) s = rowHandler f.row q s := by
  rw [← f.row_instr, exec_row_of_ready hq (by rw [hs, f.rowOfStage_stage])]

/-- All that a SAMPLE which passes every check does at the stage of a field, by what the data classifier says of it. -/
theorem exec_field_outcomes (f : Field) (hq : Ready q s) (hs : s.regs.stage = f.stage) :
    let out := exec (f.instr q) s
    let ends := s.regs.bitIdx.toNat + 1 = (s.protocol.width f).toNat
    let v := fun b => accumulated s.params.widths.wField f b s.regs
    (∀ k, dataOutcome q s = .errs k → out = .next (failedWith k s)) ∧
    (dataOutcome q s = .continues → out = .next (okWith s.regs s)) ∧
    (∀ b, dataOutcome q s = .completes b → ends → ¬ f.Checked s.protocol s.regs (v b) →
      out = .next (failedWith .inverseMismatch s)) ∧
    (∀ b, dataOutcome q s = .completes b → ends → f.Checked s.protocol s.regs (v b) →
      out = .next (okWith (((f.take b q.timestamp s).setBitIdx 0).setStage (f.next s.params s.protocol)) s)) ∧
    (∀ b, dataOutcome q s = .completes b → ¬ ends → AdvancesTo out (f.take b q.timestamp s) s) := by
  simp only [exec_field_of_ready hq hs]
  refine ⟨fun k h => rowHandler_field_of_errs h, fun h => rowHandler_field_of_continues h,
    fun b h he hc => rowHandler_field_of_mismatch h (fieldEnds_iff.mpr he) hc, fun b h he hc => ?ended,
    fun b h he => ?taken⟩
  case ended =>
    rw [rowHandler_field_of_completes h fun _ => hc, accumulate_of_ends (fieldEnds_iff.mpr he)]; rfl
  case taken =>
    have hno : fieldEnds f s = false := Bool.eq_false_iff.mpr (mt fieldEnds_iff.mp he)
    refine ⟨nextBitIdx s, nextDraws s, nextBitIdx_fits s, nextBitIdx_of_lt, ?_⟩
    rw [rowHandler_field_of_completes h fun hends => absurd (fieldEnds_iff.mp hends) he, accumulate_of_not_ends hno]; rfl

end

/-- Settles O22: a primary field has no check at its end. -/
theorem addrStageAccumulatesTheAddress : Obligations.AddrStageAccumulatesTheAddress := by
  intro q s hq hs
  obtain ⟨herrs, hcont, -, hended, htaken⟩ := exec_field_outcomes .addr hq hs
  exact ⟨herrs, hcont, fun b h he => hended b h he trivial, htaken⟩

/-- Settles O23: the check of AddrInv is against `addr`. -/
theorem addrInvStageChecksTheAddress : Obligations.AddrInvStageChecksTheAddress :=
  fun _ _ => exec_field_outcomes .addrInv

/-- Settles O24: a primary field has no check at its end. -/
theorem cmdStageAccumulatesTheCommand : Obligations.CmdStageAccumulatesTheCommand := by
  intro q s hq hs
  obtain ⟨herrs, hcont, -, hended, htaken⟩ := exec_field_outcomes .cmd hq hs
  exact ⟨herrs, hcont, fun b h he => hended b h he trivial, htaken⟩

/-- Settles O25: the check of CmdInv is against `cmd`. -/
theorem cmdInvStageChecksTheCommand : Obligations.CmdInvStageChecksTheCommand :=
  fun _ _ => exec_field_outcomes .cmdInv

/-! ## The inverse check and the accepted bit, as numbers (R161, R165) -/

/-- The complement of the low `w` bits, as a number. -/
theorem not_and_mask_toNat (p : FieldWord) {w : Nat} (hw : w ≤ 255) :
    (~~~p &&& mask w).toNat = 2 ^ w - 1 - p.toNat % 2 ^ w := by
  have hpow : 2 ^ w ≤ 2 ^ 255 := Nat.pow_le_pow_right (by decide) hw
  have hmask : (mask w).toNat = 2 ^ w - 1 := by
    have := Nat.two_pow_pos w
    rw [mask, BitVec.toNat_ofNat, Nat.mod_eq_of_lt (by omega)]
  calc (~~~p &&& mask w).toNat
      = (~~~p).toNat % 2 ^ w := by rw [BitVec.toNat_and, hmask, Nat.and_two_pow_sub_one_eq_mod]
    _ = (~~~(p.setWidth w)).toNat := by rw [← BitVec.toNat_setWidth, BitVec.setWidth_not hw]
    _ = 2 ^ w - 1 - p.toNat % 2 ^ w := by rw [BitVec.toNat_not, BitVec.toNat_setWidth]

/-- The two inverse rows are the rows of two fields, checked against the given primary field. -/
theorem inverseRow?_eq_some {d : DecoderState} {i : Instr} {f : Field} {c : StageCode} {q : SampleArgs} {p : FieldWord}
    (h : inverseRow? d i = some (f, c, q, p)) :
    i = f.instr q ∧ c = f.stage ∧
      ∀ (cfg : ProtocolConfig) (v : FieldWord), f.Checked cfg d v ↔ v = ~~~p &&& mask (cfg.width f).toNat := by
  cases i <;> cases h <;> exact ⟨rfl, rfl, fun _ _ => Iff.rfl⟩

/-- Settles O26: the field's check compares the complete value with the complement as a number. -/
theorem inverseIsCheckedOnceAtTheFieldEnd : Obligations.InverseIsCheckedOnceAtTheFieldEnd := by
  intro i f c q p s b hi hq hs hb
  obtain ⟨rfl, rfl, hchecked⟩ := inverseRow?_eq_some hi
  obtain ⟨-, -, hmismatch, hended, htaken⟩ := exec_field_outcomes f hq hs
  have hw : (s.protocol.width f).toNat ≤ 255 := width_le_of_admits (admitted_of_ready hq) f
  have hiff : f.Checked s.protocol s.regs (accumulated s.params.widths.wField f b s.regs) ↔
      (accumulated s.params.widths.wField f b s.regs).toNat =
        2 ^ (s.protocol.width f).toNat - 1 - p.toNat % 2 ^ (s.protocol.width f).toNat := by
    rw [hchecked, ← not_and_mask_toNat p hw, BitVec.toNat_inj]
  refine ⟨fun he hv => hmismatch b hb he (mt hiff.mp hv), fun he hv => ⟨_, hended b hb he (hiff.mpr hv), rfl⟩,
    fun he => ?_⟩
  obtain ⟨n, draws, -, -, hout⟩ := htaken b hb he
  exact ⟨_, hout, rfl⟩

theorem fieldRow?_eq_some {i : Instr} {f : Field} {c : StageCode} {q : SampleArgs} (h : fieldRow? i = some (f, c, q)) :
    i = f.instr q ∧ c = f.stage := by
  cases i <;> cases h <;> exact ⟨rfl, rfl⟩

/-- Of R39, in the stage of a field: the field has no bit at or above `bit_idx`, which is below its width. -/
theorem reachable_field {a : Params} {p : ProtocolConfig} {d : DecoderState} (h : Reachable a p d) {f : Field}
    (hs : d.stage = f.stage) :
    (d.field f).toNat < 2 ^ d.bitIdx.toNat ∧ d.bitIdx.toNat < (p.width f).toNat := by
  obtain ⟨-, ⟨haddr, hcmd, -⟩, -, ⟨h2, h3, h4, h5⟩, -⟩ := h
  cases f with
  | addr => exact ⟨h2 hs, haddr (.inl hs)⟩
  | addrInv => exact ⟨h3 hs, haddr (.inr hs)⟩
  | cmd => exact ⟨h4 hs, hcmd (.inl hs)⟩
  | cmdInv => exact ⟨h5 hs, hcmd (.inr hs)⟩

theorem Field.take_field_same (f : Field) (b : Bool) (t : Timestamp) (s : State) :
    (f.take b t s).field f = accumulated s.params.widths.wField f b s.regs := by
  simp [Field.take]

/-- A data bit that returned `Ok` is in its field. -/
theorem exec_field_completes_field {f : Field} {q : SampleArgs} {s t : State} {b : Bool} (hq : Ready q s)
    (hs : s.regs.stage = f.stage) (hb : dataOutcome q s = .completes b) (ht : exec (f.instr q) s = .next t)
    (hok : t.response = some .ok) : t.regs.field f = accumulated s.params.widths.wField f b s.regs := by
  obtain ⟨-, -, hmismatch, hended, htaken⟩ := exec_field_outcomes f hq hs
  by_cases he : s.regs.bitIdx.toNat + 1 = (s.protocol.width f).toNat
  · by_cases hc : f.Checked s.protocol s.regs (accumulated s.params.widths.wField f b s.regs)
    · obtain rfl := Host.Outcome.next.inj (ht.symm.trans (hended b hb he hc))
      simp [f.take_field_same]
    · obtain rfl := Host.Outcome.next.inj (ht.symm.trans (hmismatch b hb he hc))
      simp at hok
  · obtain ⟨n, draws, -, -, hout⟩ := htaken b hb he
    obtain rfl := Host.Outcome.next.inj (ht.symm.trans hout)
    exact (DecoderState.setBitIdx_field _ n f).trans (f.take_field_same b q.timestamp s)

/-- Settles O27: by R39 the bit falls above all the field holds, and within `W_FIELD`. -/
theorem acceptedBitAddsItsPowerOfTwo : Obligations.AcceptedBitAddsItsPowerOfTwo := by
  intro i f c q s t b hi hq hs hreach hb ht hok
  obtain ⟨rfl, rfl⟩ := fieldRow?_eq_some hi
  obtain ⟨hv, hlt⟩ := reachable_field hreach hs
  have hw := ((bounds_of_admits (admitted_of_ready hq)).width f).2
  rw [exec_field_completes_field hq hs hb ht hok]
  exact accumulated_toNat hv (hlt.trans_le hw) s.params.widths.field_ok.2

/-! ## Inverses that are not supported (R174) -/

/-! The classifiers answer timing errors alone, whatever the path through their bands. -/

theorem classifyData_ne_inverseMismatch (c : BitAssign) (p : ProtocolConfig) (pl : PlatformConfig) (e : Nat)
    (l : Level) : classifyData c p pl e l ≠ .errs .inverseMismatch := by
  unfold classifyData
  cases l <;> grind

theorem classifyStart_ne_inverseMismatch (p : ProtocolConfig) (pl : PlatformConfig) (e : Nat) (l : Level) :
    classifyStart p pl e l ≠ .errs .inverseMismatch := by
  unfold classifyStart
  cases l <;> grind

theorem classifyStop_ne_inverseMismatch (a : StopLateLow) (p : ProtocolConfig) (pl : PlatformConfig) (e : Nat)
    (l : Level) : classifyStop a p pl e l ≠ .errs .inverseMismatch := by
  unfold classifyStop stopLateLow
  cases l <;> cases a <;> grind

theorem primaryField_response_ne {f : Field} {nxt : StageCode} {l : Level} {t : Timestamp} {s u : State}
    (h : primaryField f nxt l t s = .next u) : u.response ≠ some (.error .inverseMismatch) := by
  obtain ⟨k, rfl, hk⟩ | rfl | ⟨b, -, -, rfl⟩ := primaryField_next h
  · rintro ⟨⟩; exact classifyData_ne_inverseMismatch _ _ _ _ _ hk
  · nofun
  · nofun

/-- Only the handlers of the two inverse stages raise `InverseMismatch`. -/
theorem rowHandler_response_ne {r : StageRow} {q : SampleArgs} {s t : State} (h : rowHandler r q s = .next t)
    (h3 : r ≠ .addrInv) (h5 : r ≠ .cmdInv) : t.response ≠ some (.error .inverseMismatch) := by
  cases r with
  | idle => obtain ⟨-, rfl⟩ | ⟨-, rfl⟩ := handleIdle_next h <;> nofun
  | startSymbol =>
    obtain ⟨k, rfl, hk⟩ | rfl | ⟨-, rfl⟩ := handleStartSymbol_next h
    · rintro ⟨⟩; exact classifyStart_ne_inverseMismatch _ _ _ _ hk
    · nofun
    · nofun
  | addr => exact primaryField_response_ne h
  | addrInv => exact absurd rfl h3
  | cmd => exact primaryField_response_ne h
  | cmdInv => exact absurd rfl h5
  | stopSymbol =>
    obtain ⟨k, rfl, hk⟩ | rfl | ⟨-, rfl⟩ := handleStopSymbol_next h
    · rintro ⟨⟩; exact classifyStop_ne_inverseMismatch _ _ _ _ _ hk
    · nofun
    · nofun
  | finished => obtain rfl | rfl := finishedPolicy_next h <;> nofun
  | invalidStage => obtain rfl := raise_next.mp h; nofun

/-- A request raises `InverseMismatch` only in an inverse stage (R168, R171). -/
theorem exec_response_ne_inverseMismatch {i : Instr} {s t : State} (h : exec i s = .next t) (h3 : s.regs.stage ≠ 3)
    (h5 : s.regs.stage ≠ 5) : t.response ≠ some (.error .inverseMismatch) := by
  obtain rfl | ⟨r, q, rfl⟩ := i.eq_init_or_row
  · obtain rfl := returnOk_next.mp h; nofun
  · rw [exec_row] at h
    obtain ⟨k, rfl, hk⟩ | ⟨-, -, -, -, rfl, hh⟩ := sample_next h
    · rintro ⟨⟩; simp at hk
    · exact rowHandler_response_ne hh (mt (rowOfStage_addrInv _).mp h3) (mt (rowOfStage_cmdInv _).mp h5)

/-- A request enters the stage of a field other than `addr` only by the end of another field. -/
theorem Transition.stage_ne {i : Instr} {s t : State} (h : Transition s i t) {g : Field} (hg : g ≠ .addr)
    (hnext : s.admitted = true → ∀ f : Field, f.next s.params s.protocol ≠ g.stage) (hs : s.regs.stage ≠ g.stage) :
    t.regs.stage ≠ g.stage := by
  cases h with
  | failed => exact hs
  | stayed => exact hs
  | initialised => cases g <;> simp [Field.stage]
  | frameStarted q => cases g <;> simp [Field.stage]
  | startEnded q => cases g <;> simp_all [Field.stage]
  | bitTaken f q b => simpa [Field.take_stage] using hs
  | fieldEnded f q b _ ha => exact hnext ha f
  | frameFinished q => cases g <;> simp [Field.stage]

/-- Under `REJECT_CONFIG` an admitted configuration asks for no inverse field (A9). -/
theorem verify_flags_of_rejectConfig {s : State} (hr : s.params.inverseSupport = .rejectConfig)
    (ha : s.admitted = true) :
    s.protocol.addrVerifyInverse = false ∧ s.protocol.cmdVerifyInverse = false := by
  simp only [State.admitted, admits, Bool.and_eq_true, hr] at ha
  simpa [inverseSupported] using ha.2

theorem postCmdFlag_of_not {p : ProtocolConfig} (ha : p.addrVerifyInverse = false) (hc : p.cmdVerifyInverse = false)
    (c : PostCmdSelect) : postCmdFlag c p = false := by
  rw [postCmdFlag_of_eq (ha.trans hc.symm), hc]

/-- Settles O35: admission refuses the flags (A9), and without them no field ends in an inverse stage. -/
theorem rejectedInversesAreUnreachable : Obligations.RejectedInversesAreUnreachable := by
  intro i s hr
  refine ⟨fun q hi hall hflags => ?refused, fun t h3 h5 ht => ⟨?addrInv, ?cmdInv, ?mismatch⟩⟩
  case refused =>
    refine (admissionIsTheNineChecks i q s hi hall).mpr fun ⟨_, _, _, _, _, _, _, _, _, hsupported⟩ => ?_
    exact hflags (hsupported hr)
  case addrInv =>
    exact (exec_transition ht).stage_ne (g := .addrInv) nofun
      (fun ha => Field.next_ne_addrInv (verify_flags_of_rejectConfig hr ha).1) h3
  case cmdInv =>
    refine (exec_transition ht).stage_ne (g := .cmdInv) nofun (fun ha => Field.next_ne_cmdInv ?_) h5
    obtain ⟨hfa, hfc⟩ := verify_flags_of_rejectConfig hr ha
    exact postCmdFlag_of_not hfa hfc _
  case mismatch => exact exec_response_ne_inverseMismatch ht h3 h5

end Sys2Proof.Machine
end

section
/-! PROOF. The stage handler family, second part: whole frames (R175). A frame is followed request by request through the
registers it leaves: the start symbol, the bits of each field, the check at the end of an inverse field, the stop
symbol. -/

namespace Sys2Proof.Machine

open Sys2Proof.Safety Sys2Proof.Claims

/-! ## Data bits as numbers (R10, R175) -/

theorem lsbValue_concat (bs : List Bool) (b : Bool) :
    lsbValue (bs ++ [b]) = lsbValue bs + b.toNat * 2 ^ bs.length := by
  induction bs with
  | nil => simp [lsbValue]
  | cons c cs ih => simp only [List.cons_append, lsbValue, ih, List.length_cons, Nat.pow_succ]; ring

theorem lsbValue_lt (bs : List Bool) : lsbValue bs < 2 ^ bs.length := by
  induction bs with
  | nil => decide
  | cons c cs ih => have := c.toNat_lt; simp only [lsbValue, List.length_cons, Nat.pow_succ]; omega

theorem lsbValue_map_not (bs : List Bool) : lsbValue (bs.map (!·)) = 2 ^ bs.length - 1 - lsbValue bs := by
  induction bs with
  | nil => rfl
  | cons c cs ih =>
    have hlt := lsbValue_lt cs
    simp only [List.map_cons, lsbValue, ih, List.length_cons, Nat.pow_succ]
    cases c <;> simp <;> omega

theorem lsbValue_injective {bs cs : List Bool} (hlen : bs.length = cs.length) (h : lsbValue bs = lsbValue cs) :
    bs = cs := by
  induction bs generalizing cs with
  | nil => exact (List.eq_nil_of_length_eq_zero hlen.symm).symm
  | cons b bs ih =>
    cases cs with
    | nil => cases hlen
    | cons c cs =>
      simp only [lsbValue] at h
      have := b.toNat_lt
      have := c.toNat_lt
      have hb : b.toNat = c.toNat := by omega
      rw [← b.ofNat_toNat, hb, c.ofNat_toNat, ih (Nat.succ.inj hlen) (by omega)]

/-- Data bits as the value of a field register. -/
def bitsWord (bs : List Bool) : FieldWord := BitVec.ofNat 255 (lsbValue bs)

theorem bitsWord_toNat {bs : List Bool} (h : bs.length ≤ 255) : (bitsWord bs).toNat = lsbValue bs := by
  have hlt := (lsbValue_lt bs).trans_le (Nat.pow_le_pow_right (by decide) h)
  rw [bitsWord, BitVec.toNat_ofNat, Nat.mod_eq_of_lt hlt]

/-- The check at the end of an inverse field compares bit by bit (R165). -/
theorem bitsWord_eq_not_iff {bs cs : List Bool} {w : Nat} (hbs : bs.length = w) (hcs : cs.length = w) (hw : w ≤ 255) :
    bitsWord cs = ~~~bitsWord bs &&& mask w ↔ cs = bs.map (!·) := by
  rw [← BitVec.toNat_inj, not_and_mask_toNat _ hw, bitsWord_toNat (hcs.trans_le hw), bitsWord_toNat (hbs.trans_le hw),
    Nat.mod_eq_of_lt (hbs ▸ lsbValue_lt bs), ← hbs, ← lsbValue_map_not]
  exact ⟨lsbValue_injective (by simp [hbs, hcs]), fun h => by rw [h]⟩

/-! ## Requests answered one after another (R57) -/

/-- The operands of the canonical SAMPLE word (R79). -/
def SampleArgs.canonical (l : Level) (t : Timestamp) : SampleArgs := ⟨l, t, true, true, true⟩

/-- The request that this SAMPLE is to a decoder with these registers (R77). -/
def sampleAt (d : DecoderState) (l : Level) (t : Timestamp) : Instr :=
  (rowOfStage d.stage).instr (SampleArgs.canonical l t)

/-- The host has these words still to issue, under one configuration, to a decoder with the registers `d` that has seen no
error. -/
structure Pending (a : Params) (p : ProtocolConfig) (pl : PlatformConfig) (d : DecoderState) (ws : List RequestWord)
    (s : State) : Prop where
  params   : s.params = a
  regs     : s.regs = d
  errSeen  : s.errSeen = false
  requests : s.requests = presented p pl ws

section
variable (a : Params) (p : ProtocolConfig) (pl : PlatformConfig)

/-- A state in which a request is performed under these parameters and this configuration. -/
structure Performing (d : DecoderState) (s : State) : Prop where
  params   : s.params = a
  protocol : s.protocol = p
  platform : s.platform = pl
  regs     : s.regs = d

/-- A decoder with the registers `d`, not yet at `Finished`, answers this SAMPLE with `Ok` and then has the registers
`d'`. -/
def Accepts (d : DecoderState) (l : Level) (t : Timestamp) (d' : DecoderState) : Prop :=
  d.stage ≠ 7 ∧ ∀ s, Performing a p pl d s →
    ∃ n, exec (sampleAt d l t) s = .next { s with regs := d', draws := n, response := some .ok }

/-- A decoder with the registers `d`, not yet at `Finished`, answers this SAMPLE with an error. -/
def Rejects (d : DecoderState) (l : Level) (t : Timestamp) (k : ErrorKind) : Prop :=
  d.stage ≠ 7 ∧ ∀ s, Performing a p pl d s → exec (sampleAt d l t) s = .next (failedWith k s)

/-- The same of a list of SAMPLE words, each answered with `Ok`. -/
inductive Accepted : DecoderState → List RequestWord → DecoderState → Prop
  | nil (d : DecoderState) : Accepted d [] d
  | cons {d d' d'' : DecoderState} {l : Level} {t : Timestamp} {ws : List RequestWord} (h : Accepts a p pl d l t d')
      (hs : Accepted d' ws d'') : Accepted d (sampleWord l t :: ws) d''

/-- One of these words is answered with `InverseMismatch`, those before it with `Ok`. -/
def Mismatched (d : DecoderState) (ws : List RequestWord) : Prop :=
  ∃ before l t after d', ws = before ++ sampleWord l t :: after ∧ Accepted a p pl d before d' ∧
    Rejects a p pl d' l t .inverseMismatch

end

section
variable {a : Params} {p : ProtocolConfig} {pl : PlatformConfig} {d d' d'' : DecoderState} {l : Level} {t : Timestamp}
  {ws ws' : List RequestWord} {s : State}

theorem Accepted.append (h : Accepted a p pl d ws d') (h' : Accepted a p pl d' ws' d'') :
    Accepted a p pl d (ws ++ ws') d'' := by
  induction h with
  | nil => exact h'
  | cons hl _ ih => exact .cons hl (ih h')

theorem Mismatched.after (h : Accepted a p pl d ws d') (h' : Mismatched a p pl d' ws') :
    Mismatched a p pl d (ws ++ ws') := by
  obtain ⟨before, l, t, after, d₁, rfl, hacc, hrej⟩ := h'
  exact ⟨ws ++ before, l, t, after, d₁, (List.append_assoc ..).symm, h.append hacc, hrej⟩

theorem Mismatched.append (h : Mismatched a p pl d ws) (ws' : List RequestWord) : Mismatched a p pl d (ws ++ ws') := by
  obtain ⟨before, l, t, after, d₁, rfl, hacc, hrej⟩ := h
  exact ⟨before, l, t, after ++ ws', d₁, by simp, hacc, hrej⟩

/-- The step with a canonical SAMPLE word pending performs the row that the stage selects. -/
theorem Pending.step (h : Pending a p pl d (sampleWord l t :: ws) s) :
    ∃ s', step s = exec (sampleAt d l t) s' ∧ Performing a p pl d s' ∧ s'.errSeen = false ∧
      s'.requests = presented p pl ws := by
  obtain ⟨rfl, rfl, herr, hreq⟩ := h
  exact ⟨_, step_ok hreq (decode_encodeSample _ _), ⟨rfl, rfl, rfl, rfl⟩, herr, rfl⟩

theorem Accepts.step (h : Accepts a p pl d l t d') (hs : Pending a p pl d (sampleWord l t :: ws) s) :
    ∃ u, step s = .next u ∧ Pending a p pl d' ws u ∧ u.response = some .ok := by
  obtain ⟨s', hstep, hperf, herr, hreq⟩ := hs.step
  obtain ⟨n, hn⟩ := h.2 s' hperf
  exact ⟨_, hstep.trans hn, ⟨hperf.params, rfl, herr, hreq⟩, rfl⟩

theorem Rejects.step {k : ErrorKind} (h : Rejects a p pl d l t k) (hs : Pending a p pl d (sampleWord l t :: ws) s) :
    ∃ u, step s = .next u ∧ u.response = some (.error k) ∧ u.regs = d := by
  obtain ⟨s', hstep, hperf, -, -⟩ := hs.step
  exact ⟨_, hstep.trans (h.2 s' hperf), rfl, hperf.regs⟩

theorem run_succ {u : State} (n : Nat) (h : step s = .next u) : core.run (n + 1) s = core.run n u := by
  have hcore : core.step s = .next u := h
  simp only [Host.Core.run, hcore]

theorem run_add {u : State} : ∀ (m n : Nat) {s : State}, core.run m s = .next u → core.run (m + n) s = core.run n u
  | 0, n, s, h => by rw [Nat.zero_add, Host.Outcome.next.inj h]
  | m + 1, n, s, h => by
    simp only [Host.Core.run] at h
    split at h
    · rw [Nat.add_right_comm, run_succ _ ‹_›, run_add m n h]
    · cases h
    · cases h

/-- A run over accepted words answers each with `Ok`, finds no state before its last at `Finished`, and leaves the words
after them. -/
theorem Accepted.run (h : Accepted a p pl d ws d') {s : State} (hs : Pending a p pl d (ws ++ ws') s) :
    (∃ t, core.run ws.length s = .next t ∧ Pending a p pl d' ws' t) ∧
    ∀ m ≤ ws.length, ∃ u, core.run m s = .next u ∧ (0 < m → u.response = some .ok) ∧
      (m < ws.length → u.regs.stage ≠ 7) := by
  induction h generalizing s with
  | nil =>
    refine ⟨⟨s, rfl, hs⟩, fun m hm => ?_⟩
    obtain rfl := Nat.le_zero.mp hm
    exact ⟨s, rfl, nofun, nofun⟩
  | cons hl _ ih =>
    obtain ⟨u, hstep, hu, hok⟩ := hl.step hs
    obtain ⟨⟨t, ht, hpend⟩, hall⟩ := ih hu
    refine ⟨⟨t, (run_succ _ hstep).trans ht, hpend⟩, fun m hm => ?_⟩
    cases m with
    | zero => exact ⟨s, rfl, nofun, fun _ => hs.regs ▸ hl.1⟩
    | succ m =>
      obtain ⟨v, hv, hvok, hstage⟩ := hall m (Nat.le_of_succ_le_succ hm)
      refine ⟨v, (run_succ m hstep).trans hv, fun _ => ?_, fun hlt => hstage (Nat.lt_of_succ_lt_succ hlt)⟩
      cases m with
      | zero => obtain rfl := Host.Outcome.next.inj hv; exact hok
      | succ m => exact hvok m.succ_pos

end

/-! ## One SAMPLE, by what its classifier says -/

section
variable {a : Params} {p : ProtocolConfig} {pl : PlatformConfig} {d d' : DecoderState} {l : Level} {t : Timestamp}
  {b : Bool}

/-- Under an admitted configuration a SAMPLE is its row's handler. -/
theorem exec_sampleAt (ha : admits a p pl = true) {s : State} (hs : Performing a p pl d s) :
    exec (sampleAt d l t) s = rowHandler (rowOfStage d.stage) (SampleArgs.canonical l t) s := by
  obtain ⟨rfl, rfl, rfl, rfl⟩ := hs
  exact exec_row_of_ready ⟨rfl, rfl, rfl, ha⟩ rfl

/-- What a handler that returns `Ok` writes is accepted. -/
theorem Accepts.of_returnOk (ha : admits a p pl = true) (hd : d.stage ≠ 7)
    (h : ∀ s, Performing a p pl d s → ∃ n, rowHandler (rowOfStage d.stage) (SampleArgs.canonical l t) s =
      returnOk { s with regs := d', draws := n }) : Accepts a p pl d l t d' :=
  ⟨hd, fun s hs => (h s hs).imp fun _ hn => (exec_sampleAt ha hs).trans hn⟩

variable (ha : admits a p pl = true)
include ha

/-- The first high sample starts a frame (R160). -/
theorem accepts_frameStarted (hd : d.stage = 0) : Accepts a p pl d .high t ((d.setSymbolStart t).setStage 1) := by
  refine .of_returnOk ha (by simp [hd]) fun s hs => ⟨s.draws, ?_⟩
  obtain ⟨-, -, -, rfl⟩ := hs
  rw [(rowOfStage_idle _).mpr hd]; rfl

theorem accepts_startSymbol_continues (hd : d.stage = 1) (h : classifyStart p pl (elapsed t d) l = .continues) :
    Accepts a p pl d l t d := by
  refine .of_returnOk ha (by simp [hd]) fun s hs => ⟨s.draws, ?_⟩
  obtain ⟨-, rfl, rfl, rfl⟩ := hs
  rw [(rowOfStage_startSymbol _).mpr hd]
  exact handleStartSymbol_of_continues h

theorem accepts_startSymbol_completes (hd : d.stage = 1) (h : classifyStart p pl (elapsed t d) l = .completes ()) :
    Accepts a p pl d l t ((d.setSymbolStart t).setStage 2) := by
  refine .of_returnOk ha (by simp [hd]) fun s hs => ⟨s.draws, ?_⟩
  obtain ⟨-, rfl, rfl, rfl⟩ := hs
  rw [(rowOfStage_startSymbol _).mpr hd]
  exact handleStartSymbol_of_completes h

theorem accepts_stopSymbol_completes (hd : d.stage = 6)
    (h : classifyStop a.stopLateLow p pl (elapsed t d) l = .completes ()) : Accepts a p pl d l t (d.setStage 7) := by
  refine .of_returnOk ha (by simp [hd]) fun s hs => ⟨s.draws, ?_⟩
  obtain ⟨rfl, rfl, rfl, rfl⟩ := hs
  rw [(rowOfStage_stopSymbol _).mpr hd]
  exact handleStopSymbol_of_completes h

variable {f : Field} (hd : d.stage = f.stage)
include hd

omit ha in
theorem stage_ne_finished_of_field : d.stage ≠ 7 := by rw [hd]; cases f <;> decide

theorem accepts_field_continues (h : classifyData a.bitAssign p pl (elapsed t d) l = .continues) :
    Accepts a p pl d l t d := by
  refine .of_returnOk ha (stage_ne_finished_of_field hd) fun s hs => ⟨s.draws, ?_⟩
  obtain ⟨rfl, rfl, rfl, rfl⟩ := hs
  rw [hd, f.rowOfStage_stage]
  exact rowHandler_field_of_continues h

/-- A bit that does not end its field is taken: the count fits its register, since the field's width does. -/
theorem accepts_field_taken (h : classifyData a.bitAssign p pl (elapsed t d) l = .completes b)
    (he : d.bitIdx.toNat + 1 < (p.width f).toNat) :
    Accepts a p pl d l t
      (((d.setField f (accumulated a.widths.wField f b d)).setSymbolStart t).setBitIdx (d.bitIdx + 1)) := by
  refine .of_returnOk ha (stage_ne_finished_of_field hd) fun s hs => ⟨s.draws, ?_⟩
  obtain ⟨rfl, rfl, rfl, rfl⟩ := hs
  have hno : fieldEnds f s = false := Bool.eq_false_iff.mpr (mt fieldEnds_iff.mp he.ne)
  obtain ⟨hidx, hdraws⟩ := nextBitIdx_of_lt (s := s) (he.trans ((fits_of_admits ha).1 f))
  rw [hd, f.rowOfStage_stage, rowHandler_field_of_completes h (by simp [hno]), accumulate_of_not_ends hno, hidx, hdraws]
  rfl

/-- A bit that ends its field with a value that passes the field's check ends the field. -/
theorem accepts_field_ended (h : classifyData a.bitAssign p pl (elapsed t d) l = .completes b)
    (he : d.bitIdx.toNat + 1 = (p.width f).toNat) (hc : f.Checked p d (accumulated a.widths.wField f b d)) :
    Accepts a p pl d l t
      ((((d.setField f (accumulated a.widths.wField f b d)).setSymbolStart t).setBitIdx 0).setStage (f.next a p)) := by
  refine .of_returnOk ha (stage_ne_finished_of_field hd) fun s hs => ⟨s.draws, ?_⟩
  obtain ⟨rfl, rfl, rfl, rfl⟩ := hs
  rw [hd, f.rowOfStage_stage, rowHandler_field_of_completes h fun _ => hc, accumulate_of_ends (fieldEnds_iff.mpr he)]
  rfl

/-- A bit that ends its field with a value that fails the field's check is a mismatch. -/
theorem rejects_field_mismatch (h : classifyData a.bitAssign p pl (elapsed t d) l = .completes b)
    (he : d.bitIdx.toNat + 1 = (p.width f).toNat) (hc : ¬ f.Checked p d (accumulated a.widths.wField f b d)) :
    Rejects a p pl d l t .inverseMismatch := by
  refine ⟨stage_ne_finished_of_field hd, fun s hs => ?_⟩
  rw [exec_sampleAt ha hs, hd, f.rowOfStage_stage]
  obtain ⟨rfl, rfl, rfl, rfl⟩ := hs
  exact rowHandler_field_of_mismatch h (fieldEnds_iff.mpr he) hc

end

/-! ## The symbols of R80 at their edges (R132, R133, R137, R140) -/

/-- A sample at a distance from the symbol start has that elapsed time, across 2^64 too (R130). -/
theorem elapsed_add (d : DecoderState) (y : Duration) : elapsed (d.symbolStart + y.setWidth 64) d = y.toNat := by
  have h : d.symbolStart + y.setWidth 64 - d.symbolStart = y.setWidth 64 := by
    rw [BitVec.add_comm, BitVec.add_sub_cancel]
  rw [elapsed, h, BitVec.toNat_setWidth, Nat.mod_eq_of_lt (by have := y.isLt; omega)]

section
variable {a : Params} {p : ProtocolConfig} {pl : PlatformConfig}

/-- An elapsed time within the tolerance of the period of a bit gives that bit (R132). -/
theorem classifyData_bitPeriod (ha : admits a p pl = true)
    (hassign : a.bitAssign = .byPeriod ∨ p.zeroPeriod.toNat < p.onePeriod.toNat) {b : Bool} {e : Nat}
    (h : (p.bitPeriod b).toNat ≤ e + pl.tolerance.toNat) (h' : e ≤ (p.bitPeriod b).toNat + pl.tolerance.toNat) :
    classifyData a.bitAssign p pl e .high = .completes b := by
  have hb := bounds_of_admits ha
  have hne := hb.shorter_lt
  have hs := shorter_toNat p
  have hl := longer_toNat p
  have hsbit := shorterBit_eq a.bitAssign p
  cases b with
  | true =>
    simp only [ProtocolConfig.bitPeriod, if_true] at h h'
    by_cases hlt : p.zeroPeriod.toNat < p.onePeriod.toNat
    · rw [classifyData_longer hb (by omega) (by omega), hsbit]; simp [hlt]
    · rw [classifyData_shorter hb (by omega) (by omega), hsbit]; simp_all
  | false =>
    simp only [ProtocolConfig.bitPeriod, Bool.false_eq_true, if_false] at h h'
    by_cases hlt : p.zeroPeriod.toNat < p.onePeriod.toNat
    · rw [classifyData_shorter hb (by omega) (by omega), hsbit]; simp [hlt]
    · rw [classifyData_longer hb (by omega) (by omega), hsbit]; simp_all

end

/-! ## The words of a frame (R80) -/

/-- The words of these data bits, the first of which starts at `t`. -/
def bitWords (p : ProtocolConfig) : Timestamp → List Bool → List RequestWord
  | _, [] => []
  | t, b :: bs => pseudoSym t p.dataBitPulse (p.bitPeriod b) ++ bitWords p (t + (p.bitPeriod b).setWidth 64) bs

/-- The rising edge that ends the last of these data bits. -/
def bitsStop (p : ProtocolConfig) : Timestamp → List Bool → Timestamp
  | t, [] => t
  | t, b :: bs => bitsStop p (t + (p.bitPeriod b).setWidth 64) bs

theorem bitWords_append (p : ProtocolConfig) (t : Timestamp) (bs cs : List Bool) :
    bitWords p t (bs ++ cs) = bitWords p t bs ++ bitWords p (bitsStop p t bs) cs := by
  induction bs generalizing t with
  | nil => rfl
  | cons b bs ih => simp only [List.cons_append, bitWords, bitsStop, ih, List.append_assoc]

theorem bitsStop_append (p : ProtocolConfig) (t : Timestamp) (bs cs : List Bool) :
    bitsStop p t (bs ++ cs) = bitsStop p (bitsStop p t bs) cs := by
  induction bs generalizing t with
  | nil => rfl
  | cons b bs ih => exact ih _

theorem bitWords_concat (p : ProtocolConfig) (t : Timestamp) (bs : List Bool) (b : Bool) :
    bitWords p t (bs ++ [b]) = bitWords p t bs ++ pseudoSym (bitsStop p t bs) p.dataBitPulse (p.bitPeriod b) := by
  rw [bitWords_append, bitWords, bitWords, List.append_nil]

theorem bitsStop_concat (p : ProtocolConfig) (t : Timestamp) (bs : List Bool) (b : Bool) :
    bitsStop p t (bs ++ [b]) = bitsStop p t bs + (p.bitPeriod b).setWidth 64 :=
  bitsStop_append ..

theorem pseudoBits_eq (p : ProtocolConfig) (t : Timestamp) (bs : List Bool) :
    pseudoBits p t bs = bitWords p t bs ++ [pseudoSpace (bitsStop p t bs + p.stopPulse.setWidth 64)] := by
  induction bs generalizing t with
  | nil => rfl
  | cons b bs ih => rw [pseudoBits, ih, bitWords, List.append_assoc]; rfl

/-! ## One field of a frame -/

/-- The decoder is about to receive this field: it is at the field's stage with no bit yet. -/
structure FieldAhead (f : Field) (d : DecoderState) : Prop where
  stage  : d.stage = f.stage
  bitIdx : d.bitIdx = 0
  field  : d.field f = 0

/-- The registers after these bits of a field, the last of which ended at `t`. -/
def DecoderState.receiving (d : DecoderState) (f : Field) (bs : List Bool) (t : Timestamp) : DecoderState :=
  ((d.setField f (bitsWord bs)).setSymbolStart t).setBitIdx (BitVec.ofNat 16 bs.length)

/-- The registers after all bits of a field, the last of which ended at `t`. -/
def DecoderState.received (d : DecoderState) (f : Field) (bs : List Bool) (t : Timestamp) (nxt : StageCode) :
    DecoderState :=
  (((d.setField f (bitsWord bs)).setSymbolStart t).setBitIdx 0).setStage nxt

section
variable {a : Params} {p : ProtocolConfig} {pl : PlatformConfig} {d : DecoderState} {f : Field} {bs : List Bool}

theorem FieldAhead.receiving_nil (h : FieldAhead f d) : d.receiving f [] d.symbolStart = d := by
  obtain ⟨-, hi, hv⟩ := h
  cases d
  cases f <;> simp_all [DecoderState.receiving, bitsWord, lsbValue, DecoderState.setField, DecoderState.setBitIdx,
    DecoderState.setSymbolStart]

theorem receiving_stage (t : Timestamp) : (d.receiving f bs t).stage = d.stage := by
  simp [DecoderState.receiving]

theorem receiving_bitIdx_toNat (h : bs.length ≤ 255) (t : Timestamp) :
    (d.receiving f bs t).bitIdx.toNat = bs.length := by
  rw [DecoderState.receiving, DecoderState.setBitIdx_bitIdx, BitVec.toNat_ofNat, Nat.mod_eq_of_lt (by omega)]

/-- The next bit of a field goes on top of those received (R161). -/
theorem accumulated_receiving {w : Nat} (h : bs.length < w) (hw : w ≤ 255) (b : Bool) (t : Timestamp) :
    accumulated w f b (d.receiving f bs t) = bitsWord (bs ++ [b]) := by
  have hidx : (d.receiving f bs t).bitIdx.toNat = bs.length := receiving_bitIdx_toNat (by omega) t
  have hval : ((d.receiving f bs t).field f).toNat = lsbValue bs := by
    simp [DecoderState.receiving, bitsWord_toNat (show bs.length ≤ 255 by omega)]
  apply BitVec.eq_of_toNat_eq
  rw [accumulated_toNat (by rw [hval, hidx]; exact lsbValue_lt bs) (hidx.trans_lt h) hw, hval, hidx,
    bitsWord_toNat (by simp; omega), lsbValue_concat]

theorem checked_receiving (v : FieldWord) (t : Timestamp) :
    f.Checked p (d.receiving f bs t) v ↔ f.Checked p d v := by
  cases f <;> rfl

theorem receiving_concat (b : Bool) (t t' : Timestamp) :
    (((d.receiving f bs t).setField f (bitsWord (bs ++ [b]))).setSymbolStart t').setBitIdx
      ((d.receiving f bs t).bitIdx + 1) = d.receiving f (bs ++ [b]) t' := by
  have hlen : BitVec.ofNat 16 bs.length + 1 = BitVec.ofNat 16 (bs ++ [b]).length := by
    rw [List.length_append, List.length_singleton, BitVec.ofNat_add]; rfl
  simp only [DecoderState.receiving, DecoderState.setBitIdx_bitIdx, hlen]
  cases f <;> rfl

theorem received_concat (b : Bool) (t t' : Timestamp) (nxt : StageCode) :
    ((((d.receiving f bs t).setField f (bitsWord (bs ++ [b]))).setSymbolStart t').setBitIdx 0).setStage nxt =
      d.received f (bs ++ [b]) t' nxt := by
  cases f <;> rfl

variable (hr : FrameRules a p pl)
include hr

/-- At a field's stage the falling edge of a data mark keeps sampling and the next rising edge completes the bit sent. -/
theorem dataSymbol (hs : d.stage = f.stage) (b : Bool) :
    Accepts a p pl d .low (d.symbolStart + p.dataBitPulse.setWidth 64) d ∧
    classifyData a.bitAssign p pl (elapsed (d.symbolStart + (p.bitPeriod b).setWidth 64) d) .high = .completes b := by
  obtain ⟨ha, hassign, -⟩ := hr
  refine ⟨accepts_field_continues ha hs ?_, ?_⟩
  · rw [elapsed_add]
    exact classifyData_mark (by omega) (by omega)
  · rw [elapsed_add]
    exact classifyData_bitPeriod ha hassign (by omega) (by omega)

variable (hd : FieldAhead f d)
include hd

/-- The bits of a field but the last are taken one by one. -/
theorem accepted_bits (hlen : bs.length < (p.width f).toNat) :
    Accepted a p pl d (bitWords p d.symbolStart bs) (d.receiving f bs (bitsStop p d.symbolStart bs)) := by
  have hw := ((bounds_of_admits hr.1).width f).2
  have hfield := a.widths.field_ok.2
  induction bs using List.reverseRecOn with
  | nil => rw [bitsStop, hd.receiving_nil]; exact .nil d
  | append_singleton bs b ih =>
    rw [List.length_append, List.length_singleton] at hlen
    have hs := (receiving_stage (f := f) (bs := bs) (bitsStop p d.symbolStart bs)).trans hd.stage
    obtain ⟨hmark, hbit⟩ := dataSymbol hr hs b
    have htaken := accepts_field_taken hr.1 hs hbit (by rw [receiving_bitIdx_toNat (by omega)]; exact hlen)
    rw [accumulated_receiving (by omega) hfield, receiving_concat] at htaken
    rw [bitWords_concat, bitsStop_concat]
    exact (ih (by omega)).append (.cons hmark (.cons htaken (.nil _)))

/-- The bits of a whole field: they are received if they pass the field's check, and else the last one is a mismatch. -/
theorem field_bits (hlen : bs.length = (p.width f).toNat) :
    (f.Checked p d (bitsWord bs) → Accepted a p pl d (bitWords p d.symbolStart bs)
      (d.received f bs (bitsStop p d.symbolStart bs) (f.next a p))) ∧
    (¬ f.Checked p d (bitsWord bs) → Mismatched a p pl d (bitWords p d.symbolStart bs)) := by
  obtain ⟨hpos, hw⟩ := (bounds_of_admits hr.1).width f
  have hfield := a.widths.field_ok.2
  obtain rfl | ⟨bs, b, rfl⟩ := bs.eq_nil_or_concat'
  · simp at hlen; omega
  rw [List.length_append, List.length_singleton] at hlen
  have hs := (receiving_stage (f := f) (bs := bs) (bitsStop p d.symbolStart bs)).trans hd.stage
  have hbits := accepted_bits hr hd (bs := bs) (by omega)
  obtain ⟨hmark, hbit⟩ := dataSymbol hr hs b
  have he : (d.receiving f bs (bitsStop p d.symbolStart bs)).bitIdx.toNat + 1 = (p.width f).toNat := by
    rw [receiving_bitIdx_toNat (by omega)]; exact hlen
  have hacc := accumulated_receiving (d := d) (f := f) (bs := bs) (show bs.length < a.widths.wField by omega) hfield b
    (bitsStop p d.symbolStart bs)
  rw [bitWords_concat, bitsStop_concat, ← checked_receiving (bs := bs) _ (bitsStop p d.symbolStart bs), ← hacc]
  refine ⟨fun hc => ?_, fun hc => ?_⟩
  · have hended := accepts_field_ended hr.1 hs hbit he hc
    rw [hacc, received_concat] at hended
    exact hbits.append (.cons hmark (.cons hended (.nil _)))
  · exact .after hbits ⟨[pseudoSpace _], .high, _, [], _, rfl, .cons hmark (.nil _),
      rejects_field_mismatch hr.1 hs hbit he hc⟩

end

/-! ## A primary field with its inverse field -/

/-- The field `g` is the inverse of `f`; it follows `f` if `flag` is set, and `nxt` is the stage after the two. -/
structure InversePair (a : Params) (p : ProtocolConfig) (f g : Field) (flag : Bool) (nxt : StageCode) : Prop where
  ne           : g ≠ f
  next_primary : f.next a p = if flag then g.stage else nxt
  next_inverse : g.next a p = nxt
  width_eq     : p.width g = p.width f
  unchecked    : ∀ d v, f.Checked p d v
  checked      : ∀ d v, g.Checked p d v ↔ v = ~~~d.field f &&& mask (p.width f).toNat

theorem addressPair (a : Params) (p : ProtocolConfig) :
    InversePair a p .addr .addrInv p.addrVerifyInverse Field.cmd.stage :=
  ⟨nofun, rfl, rfl, rfl, fun _ _ => trivial, fun _ _ => Iff.rfl⟩

/-- The pair of the command: the flag that `POST_CMD_SELECT` names is `cmd_verify_inverse`, or equal to it (R170). -/
theorem commandPair {a : Params} {p : ProtocolConfig}
    (h : a.postCmdSelect = .cmdFlag ∨ p.addrVerifyInverse = p.cmdVerifyInverse) :
    InversePair a p .cmd .cmdInv p.cmdVerifyInverse 6 := by
  have hflag : postCmdFlag a.postCmdSelect p = p.cmdVerifyInverse := by
    obtain h | h := h
    · rw [h]; rfl
    · exact postCmdFlag_of_eq h _
  refine ⟨nofun, ?_, rfl, rfl, fun _ _ => trivial, fun _ _ => Iff.rfl⟩
  simp only [Field.next, nextAfterCmd, hflag]; rfl

/-- The bits sent of a primary field and its inverse field. -/
def pairBits (flag : Bool) (bs cs : List Bool) : List Bool := bs ++ if flag then cs else []

/-- What the registers `d'` hold after `d` has received the bits `bs` of `f` and, if `flag` is set, the bits `cs` of its
inverse `g`. -/
structure PairReceived (f g : Field) (flag : Bool) (bs cs : List Bool) (d d' : DecoderState) : Prop where
  bitIdx  : d'.bitIdx = 0
  primary : (d'.field f).toNat = lsbValue bs
  inverse : (d'.field g).toNat = if flag then lsbValue cs else 0
  others  : ∀ h, h ≠ f → h ≠ g → d'.field h = d.field h

section
variable {d : DecoderState} {f g : Field} {bs : List Bool} {t : Timestamp} {nxt : StageCode}

theorem received_field_same : (d.received f bs t nxt).field f = bitsWord bs := by simp [DecoderState.received]

theorem received_field_ne (h : g ≠ f) : (d.received f bs t nxt).field g = d.field g := by
  simp [DecoderState.received, DecoderState.setField_field_ne _ _ h]

/-- The next field starts empty. -/
theorem fieldAhead_received (h : g ≠ f) (hn : nxt = g.stage) (hg : d.field g = 0) :
    FieldAhead g (d.received f bs t nxt) :=
  ⟨hn, rfl, (received_field_ne h).trans hg⟩

theorem received_symbolStart : (d.received f bs t nxt).symbolStart = t := rfl

end

section
variable {a : Params} {p : ProtocolConfig} {pl : PlatformConfig} {d : DecoderState} {f g : Field} {flag : Bool}
  {nxt : StageCode} {bs cs : List Bool}

/-- The bits of a primary field are received, and its inverse field is next if it is asked for. -/
theorem InversePair.primary_received (hp : InversePair a p f g flag nxt) (hr : FrameRules a p pl) (hd : FieldAhead f d)
    (hbs : bs.length = (p.width f).toNat) :
    Accepted a p pl d (bitWords p d.symbolStart bs)
      (d.received f bs (bitsStop p d.symbolStart bs) (if flag then g.stage else nxt)) := by
  rw [← hp.next_primary]
  exact (field_bits hr hd hbs).1 (hp.unchecked _ _)

/-- After the primary field the inverse field passes its check exactly if its bits are the complement. -/
theorem InversePair.checked_iff (hp : InversePair a p f g flag nxt) (ha : admits a p pl = true)
    (hbs : bs.length = (p.width f).toNat) (hcs : cs.length = (p.width f).toNat) (t : Timestamp) (nxt' : StageCode) :
    g.Checked p (d.received f bs t nxt') (bitsWord cs) ↔ cs = bs.map (!·) := by
  rw [hp.checked, received_field_same]
  exact bitsWord_eq_not_iff hbs hcs (width_le_of_admits ha f)

/-- The two fields are received if the bits of the inverse, where it is sent, are the complement. -/
theorem InversePair.accepted (hp : InversePair a p f g flag nxt) (hr : FrameRules a p pl) (hd : FieldAhead f d)
    (hg : d.field g = 0) (hbs : bs.length = (p.width f).toNat) (hcs : cs.length = (p.width f).toNat)
    (hm : flag = true → cs = bs.map (!·)) :
    ∃ d', Accepted a p pl d (bitWords p d.symbolStart (pairBits flag bs cs)) d' ∧ d'.stage = nxt ∧
      d'.symbolStart = bitsStop p d.symbolStart (pairBits flag bs cs) ∧ PairReceived f g flag bs cs d d' := by
  have hw := width_le_of_admits hr.1 f
  have hprimary := hp.primary_received hr hd hbs
  cases flag with
  | false =>
    refine ⟨_, by simpa [pairBits] using hprimary, rfl, by simp [pairBits, received_symbolStart], rfl, ?_, ?_,
      fun h hf _ => ?_⟩
    · rw [received_field_same, bitsWord_toNat (by omega)]
    · simp [received_field_ne hp.ne, hg]
    · exact received_field_ne hf
  | true =>
    have hg' : FieldAhead g (d.received f bs (bitsStop p d.symbolStart bs) g.stage) :=
      fieldAhead_received hp.ne rfl hg
    have hinverse := (field_bits hr hg' (hcs.trans (by rw [hp.width_eq]))).1
      ((hp.checked_iff hr.1 hbs hcs _ _).mpr (hm rfl))
    rw [received_symbolStart] at hinverse
    refine ⟨_, by simpa [pairBits, bitWords_append] using hprimary.append hinverse, hp.next_inverse,
      by simp [pairBits, received_symbolStart, bitsStop_append], rfl, ?_, ?_, fun h hf hgh => ?_⟩
    · rw [received_field_ne hp.ne.symm, received_field_same, bitsWord_toNat (by omega)]
    · rw [received_field_same, bitsWord_toNat (by omega), if_pos rfl]
    · rw [received_field_ne hgh, received_field_ne hf]

/-- An inverse field that is sent and is not the complement is a mismatch. -/
theorem InversePair.mismatched (hp : InversePair a p f g flag nxt) (hr : FrameRules a p pl) (hd : FieldAhead f d)
    (hg : d.field g = 0) (hbs : bs.length = (p.width f).toNat) (hcs : cs.length = (p.width f).toNat)
    (hm : ¬ (flag = true → cs = bs.map (!·))) :
    Mismatched a p pl d (bitWords p d.symbolStart (pairBits flag bs cs)) := by
  obtain ⟨rfl, hne⟩ := Classical.not_imp.mp hm
  have hg' : FieldAhead g (d.received f bs (bitsStop p d.symbolStart bs) g.stage) :=
    fieldAhead_received hp.ne rfl hg
  have hinverse := (field_bits hr hg' (hcs.trans (by rw [hp.width_eq]))).2
    (mt (hp.checked_iff hr.1 hbs hcs _ _).mp hne)
  rw [received_symbolStart] at hinverse
  simpa [pairBits, bitWords_append] using Mismatched.after (hp.primary_received hr hd hbs) hinverse

end

/-! ## Whole frames (R175) -/

/-- The registers when the data of a frame starts at `t`: nothing has been received. -/
def DecoderState.frameOpen (t : Timestamp) : DecoderState := (DecoderState.zero.setSymbolStart t).setStage 2

/-- The words of a frame's first rising edge and start symbol. -/
def startWords (p : ProtocolConfig) (t0 : Timestamp) : List RequestWord :=
  pseudoMark t0 :: pseudoSym t0 p.startPulse p.startPeriod

theorem fieldAhead_frameOpen (t : Timestamp) : FieldAhead .addr (.frameOpen t) := ⟨rfl, rfl, rfl⟩

section
variable {a : Params} {p : ProtocolConfig} {pl : PlatformConfig} (ha : admits a p pl = true)
include ha

/-- The falling edge of the start mark keeps sampling, and the next rising edge ends the start symbol. -/
theorem startSymbol {d : DecoderState} (hd : d.stage = 1) :
    Accepts a p pl d .low (d.symbolStart + p.startPulse.setWidth 64) d ∧
    Accepts a p pl d .high (d.symbolStart + p.startPeriod.setWidth 64)
      ((d.setSymbolStart (d.symbolStart + p.startPeriod.setWidth 64)).setStage 2) := by
  refine ⟨accepts_startSymbol_continues ha hd ?_, accepts_startSymbol_completes ha hd ?_⟩
  · rw [elapsed_add]
    exact classifyStart_mark (by omega) (by omega)
  · rw [elapsed_add]
    exact classifyStart_period (bounds_of_admits ha) (by omega) (by omega)

/-- The falling edge of the stop mark finishes the frame. -/
theorem stopSymbol {d : DecoderState} (hd : d.stage = 6) :
    Accepts a p pl d .low (d.symbolStart + p.stopPulse.setWidth 64) (d.setStage 7) := by
  refine accepts_stopSymbol_completes ha hd ?_
  rw [elapsed_add]
  exact classifyStop_mark (by omega) (by omega)

theorem accepted_startWords (t0 : Timestamp) :
    Accepted a p pl .zero (startWords p t0) (.frameOpen (t0 + p.startPeriod.setWidth 64)) := by
  obtain ⟨hmark, hended⟩ := startSymbol ha (d := (DecoderState.zero.setSymbolStart t0).setStage 1) rfl
  exact .cons (accepts_frameStarted ha rfl) (.cons hmark (.cons hended (.nil _)))

end

/-- The words of a frame, cut after the first of its data bits. -/
theorem pseudoFrame_eq (p : ProtocolConfig) (t0 : Timestamp) (bs cs : List Bool) :
    let t := t0 + p.startPeriod.setWidth 64
    pseudoFrame p t0 (bs ++ cs) = (startWords p t0 ++ bitWords p t bs) ++ (bitWords p (bitsStop p t bs) cs ++
      [pseudoSpace (bitsStop p (bitsStop p t bs) cs + p.stopPulse.setWidth 64)]) := by
  simp only [pseudoFrame, startWords, pseudoBits_eq, bitWords_append, bitsStop_append, List.append_assoc, List.cons_append]

theorem frameBits_eq (p : ProtocolConfig) (addr invAddr cmd invCmd : List Bool) :
    frameBits p addr invAddr cmd invCmd =
      pairBits p.addrVerifyInverse addr invAddr ++ pairBits p.cmdVerifyInverse cmd invCmd :=
  List.append_assoc ..

section
variable {a : Params} {p : ProtocolConfig} {pl : PlatformConfig} {addr invAddr cmd invCmd : List Bool}
  (hr : FrameRules a p pl) (hlen : FieldLengths p addr invAddr cmd invCmd) (t0 : Timestamp)
include hr hlen

/-- A frame whose address fields agree is accepted up to its command, which is ahead. -/
theorem accepted_address (hm : p.addrVerifyInverse = true → invAddr = addr.map (!·)) :
    let t := t0 + p.startPeriod.setWidth 64
    let bs := pairBits p.addrVerifyInverse addr invAddr
    ∃ d, Accepted a p pl .zero (startWords p t0 ++ bitWords p t bs) d ∧ d.symbolStart = bitsStop p t bs ∧
      FieldAhead .cmd d ∧ d.invCmd = 0 ∧ d.addr.toNat = lsbValue addr ∧
      d.invAddr.toNat = if p.addrVerifyInverse then lsbValue invAddr else 0 := by
  intro t bs
  obtain ⟨haddr, hinvAddr, -, -⟩ := hlen
  obtain ⟨d, hacc, hstage, hstart, hd⟩ :=
    (addressPair a p).accepted hr (fieldAhead_frameOpen t) rfl haddr hinvAddr hm
  exact ⟨d, (accepted_startWords hr.1 t0).append hacc, hstart,
    ⟨hstage, hd.bitIdx, hd.others .cmd nofun nofun⟩, hd.others .cmdInv nofun nofun, hd.primary, hd.inverse⟩

/-- A frame whose inverse fields agree is accepted as a whole and leaves its fields. -/
theorem accepted_frame (hm : SentInversesMatch p addr invAddr cmd invCmd) :
    ∃ d, Accepted a p pl .zero (pseudoFrame p t0 (frameBits p addr invAddr cmd invCmd)) d ∧
      d.stage = 7 ∧ d.bitIdx = 0 ∧ d.addr.toNat = lsbValue addr ∧ d.cmd.toNat = lsbValue cmd ∧
      d.invAddr.toNat = (if p.addrVerifyInverse then lsbValue invAddr else 0) ∧
      d.invCmd.toNat = (if p.cmdVerifyInverse then lsbValue invCmd else 0) := by
  obtain ⟨d, hacc, hstart, hahead, hinv, haddr, hinvAddr⟩ := accepted_address hr hlen t0 hm.1
  obtain ⟨-, -, hcmd, hinvCmd⟩ := hlen
  obtain ⟨d', hacc', hstage, hstart', hd'⟩ := (commandPair hr.2.2).accepted hr hahead hinv hcmd hinvCmd hm.2
  have hstop := stopSymbol hr.1 hstage
  rw [hstart', hstart] at hstop
  rw [hstart] at hacc'
  refine ⟨d'.setStage 7, ?_, rfl, hd'.bitIdx, ?_, hd'.primary, ?_, hd'.inverse⟩
  · rw [frameBits_eq, pseudoFrame_eq]
    exact hacc.append (hacc'.append (.cons hstop (.nil _)))
  · exact (congrArg BitVec.toNat (hd'.others .addr nofun nofun)).trans haddr
  · exact (congrArg BitVec.toNat (hd'.others .addrInv nofun nofun)).trans hinvAddr

/-- In a frame one of whose inverse fields does not agree some bit is a mismatch. -/
theorem mismatched_frame (hm : ¬ SentInversesMatch p addr invAddr cmd invCmd) :
    Mismatched a p pl .zero (pseudoFrame p t0 (frameBits p addr invAddr cmd invCmd)) := by
  rw [frameBits_eq, pseudoFrame_eq]
  by_cases hma : p.addrVerifyInverse = true → invAddr = addr.map (!·)
  · obtain ⟨d, hacc, hstart, hahead, hinv, -, -⟩ := accepted_address hr hlen t0 hma
    obtain ⟨-, -, hcmd, hinvCmd⟩ := hlen
    have hmc := (commandPair hr.2.2).mismatched hr hahead hinv hcmd hinvCmd fun hmc => hm ⟨hma, hmc⟩
    rw [hstart] at hmc
    exact .after hacc (hmc.append _)
  · obtain ⟨haddr, hinvAddr, -, -⟩ := hlen
    have hahead := fieldAhead_frameOpen (t0 + p.startPeriod.setWidth 64)
    have hmis := (addressPair a p).mismatched hr hahead rfl haddr hinvAddr hma
    exact (Mismatched.after (accepted_startWords hr.1 t0) hmis).append _

end

theorem presented_length (p : ProtocolConfig) (pl : PlatformConfig) (ws : List RequestWord) :
    (presented p pl ws).length = ws.length := List.length_map _

/-- Settles O47: every word of the frame is accepted. -/
theorem matchingFrameFinishesWithItsFields : Obligations.MatchingFrameFinishesWithItsFields := by
  intro s p pl t0 addr invAddr cmd invCmd hr hlen ⟨hregs, herr, hreq⟩ hm
  obtain ⟨d, hacc, hd⟩ := accepted_frame hr hlen t0 hm
  obtain ⟨⟨t, hrun, ht⟩, hall⟩ := hacc.run (ws' := []) (s := s) ⟨rfl, hregs, herr, by rw [hreq, List.append_nil]⟩
  rw [hreq, presented_length]
  refine ⟨fun n hpos hn => ?_, t, hrun, ht.requests, ht.errSeen, ht.regs ▸ hd⟩
  obtain ⟨u, hu, hok, -⟩ := hall n hn
  exact ⟨u, hu, hok hpos⟩

/-- Settles O48: the words before the mismatch are accepted, in states before `Finished`. -/
theorem mismatchingFrameFails : Obligations.MismatchingFrameFails := by
  intro s p pl t0 addr invAddr cmd invCmd hr hlen ⟨hregs, herr, hreq⟩ hm
  obtain ⟨before, l, ts, after, d, hws, hacc, hrej⟩ := mismatched_frame hr hlen t0 hm
  obtain ⟨⟨t, hrun, ht⟩, hall⟩ := hacc.run (s := s) ⟨rfl, hregs, herr, by rw [hreq, hws]⟩
  obtain ⟨u, hstep, hresp, hu⟩ := hrej.step ht
  have hlast : core.run (before.length + 1) s = .next u := by rw [run_add _ 1 hrun]; exact run_succ 0 hstep
  refine ⟨before.length + 1, u, ?_, hlast, hresp, fun m v hmn hv => ?_⟩
  · rw [hreq, presented_length, hws, List.length_append, List.length_cons]; omega
  · obtain hlt | rfl | rfl : m < before.length ∨ m = before.length ∨ m = before.length + 1 := by omega
    · obtain ⟨v', hv', -, hstage⟩ := hall m hlt.le
      obtain rfl := Host.Outcome.next.inj (hv.symm.trans hv')
      exact hstage hlt
    · obtain rfl := Host.Outcome.next.inj (hv.symm.trans hrun)
      rw [ht.regs]; exact hrej.1
    · obtain rfl := Host.Outcome.next.inj (hv.symm.trans hlast)
      rw [hu]; exact hrej.1

end Sys2Proof.Machine
end

section
/-! PROOF. The exceptions family (60_exceptions.md): an error is precise (R213), and the request after it is processed as if
there had been none (R215). -/

namespace Sys2Proof.Machine

/-! ## Precise errors (R213) -/

/-- INIT is the one request without operands. -/
theorem args?_isSome_of_ne_init {i : Instr} (hi : i ≠ .init) : i.args?.isSome = true := by
  obtain rfl | ⟨r, q, rfl⟩ := i.eq_init_or_row
  · exact absurd rfl hi
  · cases r <;> rfl

/-- Settles O28: of the transitions only the failed one answers an error, and it writes nothing else. -/
theorem errorsArePrecise : Obligations.ErrorsArePrecise := by
  intro i s t k h hk
  cases exec_transition h with
  | failed hi k' => cases hk; exact ⟨args?_isSome_of_ne_init hi, rfl⟩
  | stayed => cases hk
  | initialised => cases hk
  | frameStarted => cases hk
  | startEnded => cases hk
  | bitTaken => cases hk
  | fieldEnded => cases hk
  | frameFinished => cases hk

/-! ## A request after an error (R215) -/

/-- The state with an error behind it: the same, with the ghost bit set. -/
def State.afterError (s : State) : State := { s with errSeen := true }

/-- The answer with its next state, if there is one, taken through `g`. -/
def mapNext (g : State → State) : Host.Outcome State Fault Refusal → Host.Outcome State Fault Refusal
  | .next t => .next (g t)
  | .fault f => .fault f
  | .refused r => .refused r

section
variable (s : State)

@[simp] theorem afterError_regs : s.afterError.regs = s.regs := rfl
@[simp] theorem afterError_protocol : s.afterError.protocol = s.protocol := rfl
@[simp] theorem afterError_platform : s.afterError.platform = s.platform := rfl
@[simp] theorem afterError_params : s.afterError.params = s.params := rfl
@[simp] theorem afterError_admitted : s.afterError.admitted = s.admitted := rfl

@[simp] theorem fieldEnds_afterError (f : Field) : fieldEnds f s.afterError = fieldEnds f s := rfl

@[simp] theorem inverseMatches_afterError (f : Field) (v : FieldWord) (b : Bool) :
    inverseMatches f v b s.afterError = inverseMatches f v b s := rfl

theorem accumulate_afterError (f : Field) (nxt : StageCode) (b : Bool) (t : Timestamp) :
    accumulate f nxt b t s.afterError = (accumulate f nxt b t s).afterError := by
  simp only [accumulate, apply_ite State.afterError, fieldEnds_afterError]
  rfl

theorem raise_afterError (k : ErrorKind) : raise k s.afterError = mapNext State.afterError (raise k s) := rfl

theorem primaryField_afterError (f : Field) (nxt : StageCode) (l : Level) (t : Timestamp) :
    primaryField f nxt l t s.afterError = mapNext State.afterError (primaryField f nxt l t s) := by
  simp only [primaryField, afterError_regs, afterError_protocol, afterError_platform, afterError_params,
    accumulate_afterError]
  split <;> rfl

theorem inverseField_afterError (f : Field) (nxt : StageCode) (v : FieldWord) (l : Level) (t : Timestamp) :
    inverseField f nxt v l t s.afterError = mapNext State.afterError (inverseField f nxt v l t s) := by
  simp only [inverseField, afterError_regs, afterError_protocol, afterError_platform, afterError_params,
    fieldEnds_afterError, inverseMatches_afterError, accumulate_afterError]
  split
  · rfl
  · rfl
  · split <;> rfl

/-- No row's handler reads the ghost bit. -/
theorem rowHandler_afterError (r : StageRow) (q : SampleArgs) :
    rowHandler r q s.afterError = mapNext State.afterError (rowHandler r q s) := by
  cases r with
  | idle => simp only [rowHandler, handleIdle]; split <;> rfl
  | startSymbol =>
    simp only [rowHandler, handleStartSymbol, afterError_regs, afterError_protocol, afterError_platform]
    split <;> rfl
  | addr => exact primaryField_afterError ..
  | addrInv => exact inverseField_afterError ..
  | cmd => exact primaryField_afterError ..
  | cmdInv => exact inverseField_afterError ..
  | stopSymbol =>
    simp only [rowHandler, handleStopSymbol, afterError_regs, afterError_protocol, afterError_platform, afterError_params]
    split <;> rfl
  | finished => simp only [rowHandler, finishedPolicy, afterError_params]; split <;> rfl
  | invalidStage => rfl

/-- Neither the dispatcher nor the handler of a SAMPLE row reads the ghost bit. -/
theorem exec_row_afterError (r : StageRow) (q : SampleArgs) :
    exec (r.instr q) s.afterError = mapNext State.afterError (exec (r.instr q) s) := by
  rw [exec_row, exec_row]
  simp only [sample, afterError_admitted, afterError_regs, rowHandler_afterError, raise_afterError,
    apply_ite (mapNext State.afterError)]
  rfl

end

/-- Settles O30: every SAMPLE row commutes with the setting of the ghost bit. -/
theorem sampleAfterAnErrorFollowsTheNormalRules : Obligations.SampleAfterAnErrorFollowsTheNormalRules := by
  intro i q s hi
  obtain ⟨r, rfl⟩ := Instr.eq_row_of_args hi
  have h := exec_row_afterError s r q
  exact ⟨fun t ht => by rw [ht] at h; exact h, fun e he => by rw [he] at h; exact h⟩

end Sys2Proof.Machine
end

section
/-! PROOF. The reset and hazards family, first part: power-on reset (R240), edges seen late, and the samples of a line by
their times (R249). -/

namespace Sys2Proof.Machine

open Sys2Proof.Safety Sys2Proof.Claims

/-! ## Reset and INIT (R240) -/

/-- Settles O1: what INIT recovers is the reset state's DecoderState and ghost bit. -/
theorem powerOnResetEqualsInit : Obligations.PowerOnResetEqualsInit := by
  refine ⟨rfl, rfl, fun s t h => ?_⟩
  obtain rfl := returnOk_next.mp h
  exact ⟨recover_regs s, recover_errSeen s⟩

/-! ## Edges seen late (R249) -/

/-- A sample `d1` after the end of a symbol whose start was seen `d0` late measures the length of the symbol, off by the
difference (R130). -/
theorem elapsed_late {d : DecoderState} {u : Timestamp} {y : Duration} {d0 d1 : Nat}
    (hu : d.symbolStart = u + BitVec.ofNat 64 d0) (h0 : d0 ≤ y.toNat) (h1 : d1 < 2 ^ 63) :
    elapsed (u + y.setWidth 64 + BitVec.ofNat 64 d1) d = y.toNat + d1 - d0 := by
  have hy := y.isLt
  have hsub : u + y.setWidth 64 + BitVec.ofNat 64 d1 - d.symbolStart = BitVec.ofNat 64 (y.toNat + d1 - d0) := by
    rw [hu]
    bv_omega
  rw [elapsed, hsub, BitVec.toNat_ofNat, Nat.mod_eq_of_lt (by omega)]

theorem shorter_le_bitPeriod (p : ProtocolConfig) (b : Bool) : p.shorter.toNat ≤ (p.bitPeriod b).toNat := by
  rw [shorter_toNat]
  cases b <;> simp [ProtocolConfig.bitPeriod]

theorem bitPeriod_le_longer (p : ProtocolConfig) (b : Bool) : (p.bitPeriod b).toNat ≤ p.longer.toNat := by
  rw [longer_toNat]
  cases b <;> simp [ProtocolConfig.bitPeriod]

/-- Settles O38: each elapsed time is within the tolerance of its symbol. -/
theorem lateEdgesWithinToleranceStillDecode : Obligations.LateEdgesWithinToleranceStillDecode := by
  intro a p pl d u d0 d1 b ha hassign h0 h1 hu
  have hb := bounds_of_admits ha
  have hstart := hb.start_lt
  have hdata := hb.data_lt_shorter
  have hstop := hb.tol_le_stop
  have hbit := shorter_le_bitPeriod p b
  have htol := pl.tolerance.isLt
  refine ⟨?start, ?data, ?stop⟩
  case start =>
    rw [elapsed_late hu (by omega) (by omega)]
    exact classifyStart_period hb (by omega) (by omega)
  case data =>
    change classifyData a.bitAssign p pl (elapsed (u + (p.bitPeriod b).setWidth 64 + BitVec.ofNat 64 d1) d) .high = _
    rw [elapsed_late hu (by omega) (by omega)]
    exact classifyData_bitPeriod ha hassign (by omega) (by omega)
  case stop =>
    rw [elapsed_late hu (by omega) (by omega)]
    exact classifyStop_mark (by omega) (by omega)

/-! ## A mark between two samples (log entry 17) -/

/-- A configuration whose data mark is as long as a tolerance of one microsecond. -/
def cornerProtocol : ProtocolConfig where
  addressBits  := 1
  commandBits  := 1
  startPulse   := 2
  startPeriod  := 5
  stopPulse    := 2
  dataBitPulse := 1
  zeroPeriod   := 4
  onePeriod    := 7
  verifyFlags  := 0

/-- A decoder to which the line of a frame of two 0 bits is to be presented as a host samples it every other microsecond. -/
def cornerState : State :=
  { State.reset with
    requests := presented cornerProtocol ⟨1⟩
      (sampleLine cornerProtocol 0 [false, false] ([0, 2, 4, 6, 8, 10, 12, 14] ++ [16])) }

/-- Settles O53: the line has the edges 0, 2, 5, 6, 9, 10, 13 and 15, so that its mark from 5 to 6 is not seen, and the sample
at 8 is too late for the start symbol. -/
theorem samplingCanMissAMarkAtTheCorner : Obligations.SamplingCanMissAMarkAtTheCorner := by
  refine ⟨cornerState, cornerProtocol, ⟨1⟩, 0, 2, [0, 2, 4, 6, 8, 10, 12, 14], 16, [false], [false], ?_⟩
  have hsampled : FrameSampled 2 0 15 [0, 2, 4, 6, 8, 10, 12, 14] 16 := by decide
  have hmissed : ¬ MarksSeen (frameMarks cornerProtocol 0 [false, false]) [0, 2, 4, 6, 8, 10, 12, 14] := by decide
  exact ⟨by decide, rfl, rfl, rfl, rfl, rfl, hsampled, hmissed, rfl, rfl, rfl, 5, _, by decide, rfl, rfl⟩

/-! ## The samples of a line (R243, R244, R249) -/

theorem marksSeen_iff {marks : List (Nat × Nat)} {ts : List Timestamp} :
    MarksSeen marks ts ↔ ∀ m ∈ marks, ∃ t ∈ ts, m.1 ≤ t.toNat ∧ t.toNat < m.2 := by
  simp [MarksSeen]

/-- The samples up to the first one at or after the time `x`. -/
theorem exists_first_at {ts : List Timestamp} {x : Nat} (h : ∃ t ∈ ts, x ≤ t.toNat) :
    ∃ pre t post, ts = pre ++ t :: post ∧ (∀ v ∈ pre, v.toNat < x) ∧ x ≤ t.toNat := by
  have hsome : (ts.find? fun t => decide (x ≤ t.toNat)).isSome = true := by simpa using h
  obtain ⟨t, ht⟩ := Option.isSome_iff_exists.mp hsome
  obtain ⟨hx, pre, post, rfl, hpre⟩ := List.find?_eq_some_iff_append.mp ht
  exact ⟨pre, t, post, rfl, by simpa using hpre, by simpa using hx⟩

/-- After a sample before `x` the others begin in time for `x`. -/
theorem gapsWithin_tail {g x : Nat} {t : Timestamp} {ts : List Timestamp} (h : gapsWithin g (t :: ts) = true)
    (ht : t.toNat < x) :
    gapsWithin g ts = true ∧ (ts.head?.all fun v => decide (v.toNat < x + g)) = true := by
  cases ts with
  | nil => exact ⟨rfl, rfl⟩
  | cons u ts =>
    simp only [gapsWithin, Bool.and_eq_true, decide_eq_true_eq] at h
    exact ⟨h.2, by simp; omega⟩

/-- The first sample at or after `x` is less than the largest gap late, if the samples begin in time for `x`. -/
theorem lt_of_gapsWithin {g x : Nat} {pre : List Timestamp} {t : Timestamp} {post : List Timestamp}
    (hgaps : gapsWithin g (pre ++ t :: post) = true) (hpre : ∀ v ∈ pre, v.toNat < x)
    (hhead : ((pre ++ t :: post).head?.all fun v => decide (v.toNat < x + g)) = true) :
    t.toNat < x + g ∧ gapsWithin g (t :: post) = true := by
  induction pre with
  | nil => exact ⟨by simpa using hhead, hgaps⟩
  | cons v pre ih =>
    obtain ⟨hv, hpre⟩ := List.forall_mem_cons.mp hpre
    obtain ⟨hgaps, hhead⟩ := gapsWithin_tail hgaps hv
    exact ih hgaps hpre hhead

section
variable {g x y tEnd : Nat} {before : List Timestamp} {last : Timestamp}

/-- A host that samples in time for the time `x` samples in time for any later one. -/
theorem frameSampled_mono (h : FrameSampled g x tEnd before last) (hxy : x ≤ y) : FrameSampled g y tEnd before last := by
  obtain ⟨hsorted, hgaps, hhead, hend⟩ := h
  refine ⟨hsorted, hgaps, ?_, hend⟩
  cases hh : (before ++ [last]).head? with
  | none => rfl
  | some t =>
    simp only [hh, Option.all_some, decide_eq_true_eq] at hhead ⊢
    omega

/-- Of a mark that is no shorter than the largest gap, and ends with the frame at the latest, a sample sees the high level. -/
theorem exists_sample_in_mark (h : FrameSampled g x tEnd before last) (hmark : x + g ≤ y) (hy : y ≤ tEnd) :
    ∃ t ∈ before, x ≤ t.toNat ∧ t.toNat < y := by
  obtain ⟨-, hgaps, hhead, -, hlast⟩ := h
  obtain ⟨pre, t, post, hts, hpre, hx⟩ : ∃ pre t post, before ++ [last] = pre ++ t :: post ∧ _ :=
    exists_first_at (x := x) ⟨last, by simp, by omega⟩
  rw [hts] at hgaps hhead
  have hlate := (lt_of_gapsWithin hgaps hpre hhead).1
  have hmem : t ∈ before ++ [last] := by simp [hts]
  obtain hmem | rfl : t ∈ before ∨ t = last := by simpa using hmem
  · exact ⟨t, hmem, hx, by omega⟩
  · omega

end

section
variable {a : Params} {p : ProtocolConfig} {pl : PlatformConfig}

theorem Bounds.data_le_bitPeriod (hb : Bounds a p pl) (b : Bool) : p.dataBitPulse.toNat ≤ (p.bitPeriod b).toNat := by
  have hdata := hb.data_lt_shorter
  have hbit := shorter_le_bitPeriod p b
  omega

theorem le_bitsEnd (p : ProtocolConfig) (x : Nat) (bs : List Bool) : x ≤ bitsEnd p x bs := by
  induction bs generalizing x with
  | nil => exact Nat.le_add_right ..
  | cons b bs ih => exact (Nat.le_add_right ..).trans (ih _)

/-- Each mark of these data bits and the stop mark is as long as its kind is, and lies between their start and their end. -/
theorem Bounds.bitsMark (hb : Bounds a p pl) {bs : List Bool} {x : Nat} {m : Nat × Nat} (hm : m ∈ bitsMarks p x bs) :
    x ≤ m.1 ∧ (m.2 = m.1 + p.dataBitPulse.toNat ∨ m.2 = m.1 + p.stopPulse.toNat) ∧ m.2 ≤ bitsEnd p x bs := by
  induction bs generalizing x with
  | nil =>
    obtain rfl := List.mem_singleton.mp hm
    exact ⟨le_rfl, .inr rfl, le_rfl⟩
  | cons b bs ih =>
    obtain rfl | hm := List.mem_cons.mp hm
    · exact ⟨le_rfl, .inl rfl, (Nat.add_le_add_left (hb.data_le_bitPeriod b) x).trans (le_bitsEnd ..)⟩
    · obtain ⟨hx, hlen, hend⟩ := ih hm
      exact ⟨(Nat.le_add_right ..).trans hx, hlen, hend⟩

/-- Each mark of a frame is as long as its kind is, and lies within the frame. -/
theorem Bounds.frameMark (hb : Bounds a p pl) {bits : List Bool} {t0 : Nat} {m : Nat × Nat}
    (hm : m ∈ frameMarks p t0 bits) :
    t0 ≤ m.1 ∧
      (m.2 = m.1 + p.startPulse.toNat ∨ m.2 = m.1 + p.dataBitPulse.toNat ∨ m.2 = m.1 + p.stopPulse.toNat) ∧
      m.2 ≤ frameEnd p t0 bits := by
  obtain rfl | hm := List.mem_cons.mp hm
  · have hstart := hb.start_lt
    have hmark : t0 + p.startPulse.toNat ≤ t0 + p.startPeriod.toNat := by omega
    exact ⟨le_rfl, .inl rfl, hmark.trans (le_bitsEnd ..)⟩
  · obtain ⟨hx, hlen, hend⟩ := hb.bitsMark hm
    exact ⟨(Nat.le_add_right ..).trans hx, .inr hlen, hend⟩

end

/-- Settles O52: a mark is no shorter than `T` (A5), so but for the corner no shorter than the largest gap. -/
theorem everyMarkIsSeen : Obligations.EveryMarkIsSeen := by
  intro a p pl t0 g bits before last ha hg hs hcorner
  have hb := bounds_of_admits ha
  have hdata := hb.tol_le_data
  have hstart := hb.tol_le_start
  have hstop := hb.tol_le_stop
  simp only [← BitVec.toNat_inj] at hcorner
  refine marksSeen_iff.mpr fun m hm => ?_
  obtain ⟨hx, hlen, hend⟩ := hb.frameMark hm
  exact exists_sample_in_mark (frameSampled_mono hs hx) (by omega) hend

end Sys2Proof.Machine
end

section
/-! PROOF. The reset and hazards family, second part: a sampled frame (R249). The samples are cut at the first one of each
mark, which gives the symbols as the decoder hears them; then the frame is followed symbol by symbol, as in R175. -/

namespace Sys2Proof.Machine

open Sys2Proof.Safety Sys2Proof.Claims

/-! ## The first sample of each mark (R249) -/

section
variable {g x y tEnd : Nat} {before : List Timestamp} {last : Timestamp} {marks : List (Nat × Nat)}

/-- The host's samples, cut at the first one `t` of the mark from `x` to `y`: those after it are no earlier, and see the later
marks. -/
structure MarkFound (g x y tEnd : Nat) (marks : List (Nat × Nat)) (last : Timestamp) (pre : List Timestamp)
    (t : Timestamp) (post : List Timestamp) : Prop where
  pre_lt  : ∀ v ∈ pre, v.toNat < x
  le      : x ≤ t.toNat
  late    : t.toNat < x + g
  high    : t.toNat < y
  post_le : ∀ v ∈ post ++ [last], t.toNat ≤ v.toNat
  sampled : FrameSampled g y tEnd post last
  seen    : MarksSeen marks post

/-- A mark that is seen has a first sample, as early as the gaps allow. -/
theorem exists_markFound (h : FrameSampled g x tEnd before last) (hm : MarksSeen ((x, y) :: marks) before)
    (hlater : ∀ m ∈ marks, y ≤ m.1) :
    ∃ pre t post, before = pre ++ t :: post ∧ MarkFound g x y tEnd marks last pre t post := by
  obtain ⟨hsorted, hgaps, hhead, hend, hlast⟩ := h
  obtain ⟨⟨r, hr, hxr, hry⟩, hseen⟩ := List.forall_mem_cons.mp (marksSeen_iff.mp hm)
  obtain ⟨pre, t, post, rfl, hpre, hx⟩ := exists_first_at ⟨r, hr, hxr⟩
  rw [List.append_assoc, List.cons_append] at hsorted hgaps hhead
  obtain ⟨hlate, hgaps'⟩ := lt_of_gapsWithin hgaps hpre hhead
  obtain ⟨-, htpost, -⟩ := List.pairwise_append.mp hsorted
  obtain ⟨hle, hsorted'⟩ := List.pairwise_cons.mp htpost
  have hty : t.toNat < y := by
    obtain hr | rfl | hr : r ∈ pre ∨ r = t ∨ r ∈ post := by simpa using hr
    · exact absurd (hpre r hr) (by omega)
    · exact hry
    · exact (hle r (by simp [hr])).trans_lt hry
  rw [List.all_append, List.all_cons, Bool.and_eq_true, Bool.and_eq_true] at hend
  obtain ⟨-, -, hend'⟩ := hend
  obtain ⟨hgaps', hhead'⟩ := gapsWithin_tail hgaps' hty
  refine ⟨pre, t, post, rfl, hpre, hx, hlate, hty, hle, ⟨hsorted', hgaps', hhead', hend', hlast⟩,
    marksSeen_iff.mpr fun m hm => ?_⟩
  obtain ⟨v, hv, hmv⟩ := hseen m hm
  have hym := hlater m hm
  obtain hv | rfl | hv : v ∈ pre ∨ v = t ∨ v ∈ post := by simpa using hv
  · have := hpre v hv
    omega
  · omega
  · exact ⟨v, hv, hmv⟩

end

/-! ## The symbols of a line as the decoder hears them (R249) -/

/-- A classifier of a symbol that starts with a mark of length `M` and ends after `P` with the level `l`, in bands of width `T`
around the edges: the mark and the space after it keep sampling, the end completes with `b`. The stop symbol has no space. -/
structure SymbolBands {β : Type} (classify : Nat → Level → Classified β) (T M P : Nat) (l : Level) (b : β) : Prop where
  mark  : ∀ e, e ≤ M + T → classify e .high = .continues
  space : M < P → ∀ e, M ≤ e + T → e ≤ P + T → classify e .low = .continues
  ends  : ∀ e, P ≤ e + T → e ≤ P + T → classify e l = .completes b

section
variable {a : Params} {p : ProtocolConfig} {pl : PlatformConfig}

theorem startBands (hb : Bounds a p pl) :
    SymbolBands (classifyStart p pl) pl.tolerance.toNat p.startPulse.toNat p.startPeriod.toNat .high () where
  mark e h := by
    by_cases hlt : e + pl.tolerance.toNat < p.startPulse.toNat
    · exact classifyStart_before hlt
    · exact classifyStart_mark (Nat.le_of_not_lt hlt) h
  space _ e h h' := by
    by_cases hmark : e ≤ p.startPulse.toNat + pl.tolerance.toNat
    · exact classifyStart_mark h hmark
    · by_cases hspace : e + pl.tolerance.toNat < p.startPeriod.toNat
      · exact classifyStart_space (Nat.lt_of_not_le hmark) hspace
      · exact classifyStart_period hb (Nat.le_of_not_lt hspace) h'
  ends _ h h' := classifyStart_period hb h h'

theorem dataBands (ha : admits a p pl = true)
    (hassign : a.bitAssign = .byPeriod ∨ p.zeroPeriod.toNat < p.onePeriod.toNat) (b : Bool) :
    SymbolBands (classifyData a.bitAssign p pl) pl.tolerance.toNat p.dataBitPulse.toNat (p.bitPeriod b).toNat .high b where
  mark e h := by
    by_cases hlt : e + pl.tolerance.toNat < p.dataBitPulse.toNat
    · exact classifyData_before hlt
    · exact classifyData_mark (Nat.le_of_not_lt hlt) h
  space _ e h h' := by
    by_cases hmark : e ≤ p.dataBitPulse.toNat + pl.tolerance.toNat
    · exact classifyData_mark h hmark
    · exact classifyData_space (Nat.lt_of_not_le hmark) (h'.trans (Nat.add_le_add_right (bitPeriod_le_longer p b) _))
  ends _ h h' := classifyData_bitPeriod ha hassign h h'

theorem stopBands (c : StopLateLow) (p : ProtocolConfig) (pl : PlatformConfig) :
    SymbolBands (classifyStop c p pl) pl.tolerance.toNat p.stopPulse.toNat p.stopPulse.toNat .low () where
  mark e h := by
    by_cases hlt : e + pl.tolerance.toNat < p.stopPulse.toNat
    · exact classifyStop_before hlt
    · exact classifyStop_mark (Nat.le_of_not_lt hlt) h
  space h := absurd h (Nat.lt_irrefl _)
  ends _ h h' := classifyStop_mark h h'

end

/-- A classifier whose symbol started at `u` keeps sampling at the samples `pre` of the line and completes with `b` at the
sample `t`. -/
structure SymbolHeard {β : Type} (classify : Nat → Level → Classified β) (line : Nat → Level) (u : Timestamp)
    (pre : List Timestamp) (t : Timestamp) (b : β) : Prop where
  opens : ∀ v ∈ pre, classify (v - u).toNat (line v.toNat) = .continues
  ends  : classify (t - u).toNat (line t.toNat) = .completes b

/-- A symbol that starts at the time `x` on the line is heard, if its edges are seen at most the tolerance late. -/
theorem SymbolBands.heard {β : Type} {classify : Nat → Level → Classified β} {T M P x g : Nat} {l : Level} {b : β}
    {line : Nat → Level} {u t : Timestamp} {pre : List Timestamp} (h : SymbolBands classify T M P l b) (hg : g ≤ T + 1)
    (hMP : M ≤ P) (hline : ∀ v, x ≤ v → v < x + P → line v = if v < x + M then .high else .low)
    (hu : x ≤ u.toNat) (hu' : u.toNat < x + g) (hpre : ∀ v ∈ pre, u.toNat ≤ v.toNat ∧ v.toNat < x + P)
    (hut : u.toNat ≤ t.toNat) (ht : x + P ≤ t.toNat) (ht' : t.toNat < x + P + g) (hl : line t.toNat = l) :
    SymbolHeard classify line u pre t b where
  opens v hv := by
    obtain ⟨huv, hvP⟩ := hpre v hv
    rw [BitVec.toNat_sub_of_le (BitVec.le_def.mpr huv), hline v.toNat (by omega) hvP]
    by_cases hM : v.toNat < x + M
    · rw [if_pos hM]
      exact h.mark _ (by omega)
    · rw [if_neg hM]
      exact h.space (by omega) _ (by omega) (by omega)
  ends := by
    rw [BitVec.toNat_sub_of_le (BitVec.le_def.mpr hut), hl]
    exact h.ends _ (by omega) (by omega)

section
variable (a : Params) (p : ProtocolConfig) (pl : PlatformConfig) (line : Nat → Level)

/-- From these samples of the line the data classifier hears these bits; the first starts at `u` and the last ends at the last
time given. -/
inductive BitsHeard : Timestamp → List Bool → List Timestamp → Timestamp → Prop
  | nil (u : Timestamp) : BitsHeard u [] [] u
  | cons {u t u' : Timestamp} {b : Bool} {bs : List Bool} {pre ts : List Timestamp}
      (h : SymbolHeard (classifyData a.bitAssign p pl) line u pre t b) (hs : BitsHeard t bs ts u') :
      BitsHeard u (b :: bs) (pre ++ t :: ts) u'

end

section
variable {a : Params} {p : ProtocolConfig} {pl : PlatformConfig} {line : Nat → Level} {g : Nat} {bs : List Bool} {x : Nat}
  {before : List Timestamp} {last : Timestamp}

theorem BitsHeard.split {cs : List Bool} {u u' : Timestamp} {ts : List Timestamp}
    (h : BitsHeard a p pl line u (bs ++ cs) ts u') :
    ∃ ts₁ ts₂ t, ts = ts₁ ++ ts₂ ∧ BitsHeard a p pl line u bs ts₁ t ∧ BitsHeard a p pl line t cs ts₂ u' := by
  induction bs generalizing u ts with
  | nil => exact ⟨[], ts, u, rfl, .nil u, h⟩
  | cons b bs ih =>
    cases h with
    | cons hb hs =>
      obtain ⟨ts₁, ts₂, t, rfl, h₁, h₂⟩ := ih hs
      exact ⟨_, ts₂, t, by simp, .cons hb h₁, h₂⟩

theorem last_lt_of_frameSampled {tEnd : Nat} (h : FrameSampled g tEnd tEnd before last) : last.toNat < tEnd + g := by
  obtain ⟨-, hgaps, hhead, hend, -⟩ := h
  exact (lt_of_gapsWithin hgaps (by simpa using hend) hhead).1

/-- Where each of the marks of data bits and the stop mark is seen, the data bits and the stop symbol are heard from the first
sample of the first mark on. -/
theorem bits_heard (ha : admits a p pl = true)
    (hassign : a.bitAssign = .byPeriod ∨ p.zeroPeriod.toNat < p.onePeriod.toNat) (hg : g ≤ pl.tolerance.toNat + 1)
    (hline : ∀ v, x ≤ v → line v = lineBits p x bs v) (hs : FrameSampled g x (bitsEnd p x bs) before last)
    (hm : MarksSeen (bitsMarks p x bs) before) :
    ∃ pre u ts u' rest, before = pre ++ u :: (ts ++ rest) ∧ (∀ v ∈ pre, v.toNat < x) ∧ x ≤ u.toNat ∧ u.toNat < x + g ∧
      line u.toNat = .high ∧ BitsHeard a p pl line u bs ts u' ∧
      SymbolHeard (classifyStop a.stopLateLow p pl) line u' rest last () := by
  have hb := bounds_of_admits ha
  induction bs generalizing x before with
  | nil =>
    rw [bitsEnd] at hs
    obtain ⟨pre, u, post, rfl, hf⟩ := exists_markFound hs hm nofun
    have hlast := last_lt_of_frameSampled hf.sampled
    obtain ⟨-, -, -, hend, hlast'⟩ := hf.sampled
    refine ⟨pre, u, [], u, post, rfl, hf.pre_lt, hf.le, hf.late, ?_, .nil u, ?_⟩
    · rw [hline _ hf.le]
      exact if_pos hf.high
    · refine (stopBands a.stopLateLow p pl).heard hg le_rfl (fun v hv _ => hline v hv) hf.le hf.late
        (fun v hv => ⟨hf.post_le v (by simp [hv]), ?_⟩) (hf.post_le last (by simp)) hlast' hlast ?_
      · simpa using List.all_eq_true.mp hend v hv
      · rw [hline _ (by omega)]
        exact if_neg (by omega)
  | cons b bs ih =>
    have hperiod := hb.data_le_bitPeriod b
    obtain ⟨pre, u, post, rfl, hf⟩ := exists_markFound hs hm fun m hm => by
      obtain ⟨hx, -⟩ := hb.bitsMark hm
      omega
    have hline' : ∀ v, x + (p.bitPeriod b).toNat ≤ v → line v = lineBits p (x + (p.bitPeriod b).toNat) bs v := by
      intro v hv
      rw [hline v (by omega), lineBits, if_neg (by omega), if_neg (by omega)]
    obtain ⟨pre', t, ts, u', rest, rfl, hpre', ht, ht', hhigh, hbits, hstop⟩ :=
      ih hline' (frameSampled_mono hf.sampled (by omega)) hf.seen
    refine ⟨pre, u, pre' ++ t :: ts, u', rest, by simp, hf.pre_lt, hf.le, hf.late, ?_, .cons ?_ hbits, hstop⟩
    · rw [hline _ hf.le]
      exact if_pos hf.high
    · refine (dataBands ha hassign b).heard hg hperiod (fun v hv hv' => ?_) hf.le hf.late
        (fun v hv => ⟨hf.post_le v (by simp [hv]), hpre' v hv⟩) (hf.post_le t (by simp)) ht ht' hhigh
      rw [hline v hv, lineBits, if_pos hv']

end

section
variable {a : Params} {p : ProtocolConfig} {pl : PlatformConfig}

/-- Where each of the marks of a frame is seen, the samples are those of the idle line and the first high one, and then those
from which the start symbol, the data bits and the stop symbol are heard. -/
theorem frame_heard (ha : admits a p pl = true)
    (hassign : a.bitAssign = .byPeriod ∨ p.zeroPeriod.toNat < p.onePeriod.toNat) {g t0 : Nat}
    (hg : g ≤ pl.tolerance.toNat + 1) {bits : List Bool} {before : List Timestamp} {last : Timestamp}
    (hs : FrameSampled g t0 (frameEnd p t0 bits) before last) (hm : MarksSeen (frameMarks p t0 bits) before) :
    let line := idealLine p t0 bits
    ∃ idle u pre t ts u' rest, before = idle ++ u :: (pre ++ t :: (ts ++ rest)) ∧
      (∀ v ∈ idle, line v.toNat = .low) ∧ line u.toNat = .high ∧
      SymbolHeard (classifyStart p pl) line u pre t () ∧ BitsHeard a p pl line t bits ts u' ∧
      SymbolHeard (classifyStop a.stopLateLow p pl) line u' rest last () := by
  intro line
  have hb := bounds_of_admits ha
  have hstart := hb.start_lt
  obtain ⟨idle, u, post, rfl, hf⟩ := exists_markFound hs hm fun m hm => by
    obtain ⟨hx, -⟩ := hb.bitsMark hm
    omega
  have hmark : ∀ v, t0 ≤ v → v < t0 + p.startPeriod.toNat →
      line v = if v < t0 + p.startPulse.toNat then .high else .low := fun v hv hv' => by
    simp only [line, idealLine, if_neg (Nat.not_lt.mpr hv), if_pos hv']
  have hbits : ∀ v, t0 + p.startPeriod.toNat ≤ v → line v = lineBits p (t0 + p.startPeriod.toNat) bits v := by
    intro v hv
    simp only [line, idealLine]
    rw [if_neg (by omega), if_neg (by omega), if_neg (by omega)]
  obtain ⟨pre, t, ts, u', rest, rfl, hpre, ht, ht', hhigh, hheard, hstop⟩ :=
    bits_heard ha hassign hg hbits (frameSampled_mono hf.sampled (by omega)) hf.seen
  refine ⟨idle, u, pre, t, ts, u', rest, rfl, fun v hv => if_pos (hf.pre_lt v hv), ?_, ?_, hheard, hstop⟩
  · rw [hmark _ hf.le (by have := hf.high; omega)]
    exact if_pos hf.high
  · exact (startBands hb).heard hg (by omega) hmark hf.le hf.late
      (fun v hv => ⟨hf.post_le v (by simp [hv]), hpre v hv⟩) (hf.post_le t (by simp)) ht ht' hhigh

end

/-! ## What the decoder does with what it hears -/

/-- The SAMPLE words of these samples of a line (R79). -/
def lineWords (line : Nat → Level) (ts : List Timestamp) : List RequestWord := ts.map fun t => sampleWord (line t.toNat) t

theorem sampleLine_eq (p : ProtocolConfig) (t0 : Nat) (bits : List Bool) (ts : List Timestamp) :
    sampleLine p t0 bits ts = lineWords (idealLine p t0 bits) ts := rfl

theorem lineWords_append (line : Nat → Level) (ts us : List Timestamp) :
    lineWords line (ts ++ us) = lineWords line ts ++ lineWords line us := List.map_append

section
variable {a : Params} {p : ProtocolConfig} {pl : PlatformConfig} {d d' : DecoderState} {line : Nat → Level}
  {ts : List Timestamp} {t u : Timestamp}

theorem accepted_of_forall (h : ∀ v ∈ ts, Accepts a p pl d (line v.toNat) v d) :
    Accepted a p pl d (lineWords line ts) d := by
  induction ts with
  | nil => exact .nil d
  | cons v ts ih =>
    obtain ⟨hv, hts⟩ := List.forall_mem_cons.mp h
    exact .cons hv (ih hts)

/-- A symbol is accepted if its stage keeps sampling and completes as the classifier says. -/
theorem SymbolHeard.accepted {β : Type} {classify : Nat → Level → Classified β} {b : β}
    (h : SymbolHeard classify line d.symbolStart ts t b)
    (hopens : ∀ v l, classify (elapsed v d) l = .continues → Accepts a p pl d l v d)
    (hends : ∀ l, classify (elapsed t d) l = .completes b → Accepts a p pl d l t d') :
    Accepted a p pl d (lineWords line (ts ++ [t])) d' := by
  rw [lineWords_append]
  exact (accepted_of_forall fun v hv => hopens v _ (h.opens v hv)).append (.cons (hends _ h.ends) (.nil _))

theorem accepts_idle_low (ha : admits a p pl = true) (hd : d.stage = 0) : Accepts a p pl d .low t d := by
  refine .of_returnOk ha (by simp [hd]) fun s hs => ⟨s.draws, ?_⟩
  obtain ⟨-, -, -, rfl⟩ := hs
  rw [(rowOfStage_idle _).mpr hd]; rfl

theorem accepts_stopSymbol_continues {l : Level} (ha : admits a p pl = true) (hd : d.stage = 6)
    (h : classifyStop a.stopLateLow p pl (elapsed t d) l = .continues) : Accepts a p pl d l t d := by
  refine .of_returnOk ha (by simp [hd]) fun s hs => ⟨s.draws, ?_⟩
  obtain ⟨rfl, rfl, rfl, rfl⟩ := hs
  rw [(rowOfStage_stopSymbol _).mpr hd]
  exact handleStopSymbol_of_continues h

/-- The frame starts at the first high sample (R160). -/
theorem accepted_idle (ha : admits a p pl = true) (hd : d.stage = 0) (hlow : ∀ v ∈ ts, line v.toNat = .low)
    (hhigh : line u.toNat = .high) :
    Accepted a p pl d (lineWords line (ts ++ [u])) ((d.setSymbolStart u).setStage 1) := by
  have hfirst := accepts_frameStarted (t := u) ha hd
  rw [← hhigh] at hfirst
  rw [lineWords_append]
  refine (accepted_of_forall fun v hv => ?_).append (.cons hfirst (.nil _))
  rw [hlow v hv]
  exact accepts_idle_low ha hd

theorem SymbolHeard.accepted_startSymbol (ha : admits a p pl = true) (hd : d.stage = 1)
    (h : SymbolHeard (classifyStart p pl) line d.symbolStart ts t ()) :
    Accepted a p pl d (lineWords line (ts ++ [t])) ((d.setSymbolStart t).setStage 2) :=
  h.accepted (fun _ _ hc => accepts_startSymbol_continues ha hd hc) fun _ hc => accepts_startSymbol_completes ha hd hc

theorem SymbolHeard.accepted_stopSymbol (ha : admits a p pl = true) (hd : d.stage = 6)
    (h : SymbolHeard (classifyStop a.stopLateLow p pl) line d.symbolStart ts t ()) :
    Accepted a p pl d (lineWords line (ts ++ [t])) (d.setStage 7) :=
  h.accepted (fun _ _ hc => accepts_stopSymbol_continues ha hd hc) fun _ hc => accepts_stopSymbol_completes ha hd hc

end

section
variable {a : Params} {p : ProtocolConfig} {pl : PlatformConfig} {d : DecoderState} {line : Nat → Level} {f g : Field}
  {flag : Bool} {nxt : StageCode} {bs cs : List Bool} {ts : List Timestamp} {u : Timestamp}

/-- The rest of a field, after the bits `ds` of it, is received if the field passes its check. -/
theorem BitsHeard.accepted_rest (ha : admits a p pl = true) (hd : d.stage = f.stage) {t : Timestamp} {ds : List Bool}
    (h : BitsHeard a p pl line t bs ts u) (hbs : bs ≠ []) (hlen : (ds ++ bs).length = (p.width f).toNat)
    (hc : f.Checked p d (bitsWord (ds ++ bs))) :
    Accepted a p pl (d.receiving f ds t) (lineWords line ts) (d.received f (ds ++ bs) u (f.next a p)) := by
  have hw := ((bounds_of_admits ha).width f).2
  have hfield := a.widths.field_ok.2
  induction h generalizing ds with
  | nil => exact absurd rfl hbs
  | @cons t t' u b bs pre ts h hs ih =>
    have hlen' : ds.length + (bs.length + 1) = (p.width f).toNat := by simpa using hlen
    have hstage := (receiving_stage (f := f) (bs := ds) t).trans hd
    have hidx := receiving_bitIdx_toNat (d := d) (f := f) (bs := ds) (by omega) t
    have hacc := accumulated_receiving (d := d) (f := f) (bs := ds) (show ds.length < a.widths.wField by omega) hfield b t
    have hopens : ∀ v l, classifyData a.bitAssign p pl (elapsed v (d.receiving f ds t)) l = .continues →
        Accepts a p pl (d.receiving f ds t) l v (d.receiving f ds t) :=
      fun _ _ hcl => accepts_field_continues ha hstage hcl
    rw [List.append_cons ds] at hlen hc ⊢
    rw [List.append_cons pre, lineWords_append]
    cases bs with
    | nil =>
      cases hs
      rw [List.length_nil] at hlen'
      rw [List.append_nil] at hc ⊢
      refine (SymbolHeard.accepted h hopens fun l hcl => ?_).append (.nil _)
      have hended := accepts_field_ended ha hstage hcl (by omega) (by rwa [hacc, checked_receiving])
      rwa [hacc, received_concat] at hended
    | cons b' bs =>
      rw [List.length_cons] at hlen'
      refine (SymbolHeard.accepted h hopens fun l hcl => ?_).append (ih nofun hlen hc)
      have htaken := accepts_field_taken ha hstage hcl (by omega)
      rwa [hacc, receiving_concat] at htaken

/-- A field is received if it passes its check. -/
theorem BitsHeard.accepted_field (ha : admits a p pl = true) (hd : FieldAhead f d)
    (h : BitsHeard a p pl line d.symbolStart bs ts u) (hlen : bs.length = (p.width f).toNat)
    (hc : f.Checked p d (bitsWord bs)) :
    Accepted a p pl d (lineWords line ts) (d.received f bs u (f.next a p)) := by
  have hpos := ((bounds_of_admits ha).width f).1
  have hne : bs ≠ [] := List.ne_nil_of_length_pos (by omega)
  have hrest := h.accepted_rest (ds := []) ha hd.stage hne hlen hc
  rwa [hd.receiving_nil] at hrest

/-- A primary field and, where it is sent, its inverse field are received if the bits of the inverse are the complement. -/
theorem InversePair.accepted_heard (hp : InversePair a p f g flag nxt) (ha : admits a p pl = true) (hd : FieldAhead f d)
    (hg : d.field g = 0) (hbs : bs.length = (p.width f).toNat) (hcs : cs.length = (p.width f).toNat)
    (hm : flag = true → cs = bs.map (!·)) (h : BitsHeard a p pl line d.symbolStart (pairBits flag bs cs) ts u) :
    ∃ d', Accepted a p pl d (lineWords line ts) d' ∧ d'.stage = nxt ∧ d'.symbolStart = u ∧
      PairReceived f g flag bs cs d d' := by
  have hw := width_le_of_admits ha f
  obtain ⟨ts₁, ts₂, t, rfl, hprimary, hinverse⟩ := h.split
  have hacc := hprimary.accepted_field ha hd hbs (hp.unchecked _ _)
  rw [hp.next_primary] at hacc
  cases flag with
  | false =>
    cases hinverse
    refine ⟨_, by rwa [List.append_nil], rfl, received_symbolStart, rfl, ?_, ?_, fun h hf _ => received_field_ne hf⟩
    · rw [received_field_same, bitsWord_toNat (by omega)]
    · simp [received_field_ne hp.ne, hg]
  | true =>
    rw [if_pos rfl] at hacc hinverse
    have hg' : FieldAhead g (d.received f bs t g.stage) := fieldAhead_received hp.ne rfl hg
    have hacc' := BitsHeard.accepted_field ha hg' hinverse (hcs.trans (by rw [hp.width_eq]))
      ((hp.checked_iff ha hbs hcs _ _).mpr (hm rfl))
    refine ⟨_, lineWords_append line ts₁ ts₂ ▸ hacc.append hacc', hp.next_inverse, received_symbolStart, rfl, ?_, ?_,
      fun h hf hgh => ?_⟩
    · rw [received_field_ne hp.ne.symm, received_field_same, bitsWord_toNat (by omega)]
    · rw [received_field_same, bitsWord_toNat (by omega), if_pos rfl]
    · rw [received_field_ne hgh, received_field_ne hf]

end

/-! ## Sampled frames -/

/-- A frame that is sampled as R249 asks is accepted as a whole and leaves its fields. -/
theorem accepted_sampleLine {a : Params} {p : ProtocolConfig} {pl : PlatformConfig} {addr invAddr cmd invCmd : List Bool}
    {g t0 : Nat} {before : List Timestamp} {last : Timestamp} (hr : FrameRules a p pl)
    (hlen : FieldLengths p addr invAddr cmd invCmd) (hsent : SentInversesMatch p addr invAddr cmd invCmd)
    (hg : g ≤ pl.tolerance.toNat + 1)
    (hs : FrameSampled g t0 (frameEnd p t0 (frameBits p addr invAddr cmd invCmd)) before last)
    (hm : MarksSeen (frameMarks p t0 (frameBits p addr invAddr cmd invCmd)) before) :
    ∃ d, Accepted a p pl .zero (sampleLine p t0 (frameBits p addr invAddr cmd invCmd) (before ++ [last])) d ∧
      d.stage = 7 ∧ d.bitIdx = 0 ∧ d.addr.toNat = lsbValue addr ∧ d.cmd.toNat = lsbValue cmd ∧
      d.invAddr.toNat = (if p.addrVerifyInverse then lsbValue invAddr else 0) ∧
      d.invCmd.toNat = (if p.cmdVerifyInverse then lsbValue invCmd else 0) := by
  obtain ⟨ha, hassign, hselect⟩ := hr
  obtain ⟨idle, u, pre, t, ts, u', rest, rfl, hidle, hu, hstart, hbits, hstop⟩ := frame_heard ha hassign hg hs hm
  obtain ⟨haddr, hinvAddr, hcmd, hinvCmd⟩ := hlen
  obtain ⟨haddrSent, hcmdSent⟩ := hsent
  rw [frameBits_eq] at *
  obtain ⟨ts₁, ts₂, v, rfl, hbits₁, hbits₂⟩ := hbits.split
  have hidle' := accepted_idle ha (rfl : DecoderState.zero.stage = 0) hidle hu
  have hstart' := SymbolHeard.accepted_startSymbol ha (d := (DecoderState.zero.setSymbolStart u).setStage 1) rfl hstart
  obtain ⟨d, haccd, hstage, hsymbol, hd⟩ :=
    (addressPair a p).accepted_heard ha (fieldAhead_frameOpen t) rfl haddr hinvAddr haddrSent hbits₁
  have hahead : FieldAhead .cmd d := ⟨hstage, hd.bitIdx, hd.others .cmd nofun nofun⟩
  rw [← hsymbol] at hbits₂
  obtain ⟨d', haccd', hstage', hsymbol', hd'⟩ := (commandPair hselect).accepted_heard ha hahead
    (hd.others .cmdInv nofun nofun) hcmd hinvCmd hcmdSent hbits₂
  rw [← hsymbol'] at hstop
  have hstop' := SymbolHeard.accepted_stopSymbol ha hstage' hstop
  have hall := hidle'.append (hstart'.append (haccd.append (haccd'.append hstop')))
  refine ⟨d'.setStage 7, ?_, rfl, hd'.bitIdx, ?_, hd'.primary, ?_, hd'.inverse⟩
  · simpa only [sampleLine_eq, ← lineWords_append, List.append_assoc, List.cons_append, List.nil_append] using hall
  · exact (congrArg BitVec.toNat (hd'.others .addr nofun nofun)).trans hd.primary
  · exact (congrArg BitVec.toNat (hd'.others .addrInv nofun nofun)).trans hd.inverse

/-- Settles O49: every sample of the frame is accepted. -/
theorem sampledLineFinishesWithItsFields : Obligations.SampledLineFinishesWithItsFields := by
  intro s p pl t0 g before last addr invAddr cmd invCmd bits hr hlen hsent hg hs hm hregs herr hreq
  obtain ⟨d, hacc, hd⟩ := accepted_sampleLine hr hlen hsent hg hs hm
  obtain ⟨⟨t, hrun, ht⟩, hall⟩ := hacc.run (ws' := []) (s := s) ⟨rfl, hregs, herr, by rw [hreq, List.append_nil]⟩
  rw [hreq, presented_length]
  refine ⟨fun n hpos hn => ?_, t, hrun, ht.requests, ht.errSeen, ht.regs ▸ hd⟩
  obtain ⟨u, hu, hok, -⟩ := hall n hn
  exact ⟨u, hu, hok hpos⟩

end Sys2Proof.Machine
end
